-- ==== Sys2Proof/Config.lean ====
section
/-! DEFINITION. The implementation parameters of 00_scope.md R7.

Every parameter that R7 marks "fixed" is a constant here. The parameters it marks "per instance" (LEN, A0, B0, C0)
are arguments of construction (Machine/State.lean). The parameters it marks OPEN (MAX_LEN, IPW, OUT_CAP) have no
definition: R7 says "the architecture (and a model of it) is unbounded there and takes no argument" (log entry 9).

There is no free value: R6 says "No rule of this spec draws a free value, consults an oracle or depends on a
schedule". -/

namespace Sys2Proof.Config

/-- MIN of R7: the least value of a register. -/
abbrev minWord : Int := -(2 ^ 63)

/-- MAX of R7: the greatest value of a register. -/
abbrev maxWord : Int := 2 ^ 63 - 1

/-- The greatest value of a program-memory cell and of an output value: CELL is 3 bits (R7). -/
abbrev maxCell : Nat := 7

/-- ILEN of R7: an instruction is two cells long, an opcode cell and an operand cell. -/
abbrev ilen : Nat := 2

/-- RESET_PC of R7: `pc` starts at 0. -/
abbrev resetPc : Nat := 0

/-- The largest value of JUMP_RANGE of R7: a taken jump writes 0 to 7 to `pc`. -/
abbrev maxJumpTarget : Nat := 7

end Sys2Proof.Config
end

