-- ==== Sys2Proof/Word.lean ====
section
/-! DEFINITION. The two word types of the machine: a 64-bit register and a 3-bit cell (00_scope.md R7, R11). -/

namespace Sys2Proof

/-- A register value: 64 bits, two's complement (R11, R20). The integer it stands for is `toInt`. -/
abbrev Word := BitVec 64

/-- A `u3` of 00_scope.md section 6: a program-memory cell, an opcode, an operand or an output value, 0 to 7. -/
abbrev U3 := BitVec 3

end Sys2Proof
end

