-- ==== Sys2Proof/Syntax.lean ====
section
/-! DEFINITION. The instruction set: one constructor per row of spec/opcode_table.json (30_encoding.md R62). -/

namespace Sys2Proof

/-- An instruction: its opcode is the constructor, its argument is the operand CELL as fetched, not yet resolved
(30_encoding.md R60, R63). All eight values of the operand are representable, since all 64 instruction words can be
fetched and executed (R68). The combo operand 7 is ill-formed (`Instr.wellFormed`) and raises a fault when executed. -/
inductive Instr
  /-- opcode 0, combo operand: `A <- A / 2^combo(o)` (R101) -/
  | adv (o : U3)
  /-- opcode 1, literal operand: `B <- B XOR o` (R110) -/
  | bxl (o : U3)
  /-- opcode 2, combo operand: `B <- combo(o) mod 8` (R111) -/
  | bst (o : U3)
  /-- opcode 3, literal operand: jump to cell `o` when A is not 0 (R120) -/
  | jnz (o : U3)
  /-- opcode 4, operand fetched and ignored: `B <- B XOR C` (R112) -/
  | bxc (o : U3)
  /-- opcode 5, combo operand: append `combo(o) mod 8` to the output (R130) -/
  | out (o : U3)
  /-- opcode 6, combo operand: `B <- A / 2^combo(o)` (R102) -/
  | bdv (o : U3)
  /-- opcode 7, combo operand: `C <- A / 2^combo(o)` (R103) -/
  | cdv (o : U3)
  deriving DecidableEq, Repr

/-- The operand cell of an instruction (format P, R60). -/
def Instr.operand : Instr → U3
  | .adv o => o
  | .bxl o => o
  | .bst o => o
  | .jnz o => o
  | .bxc o => o
  | .out o => o
  | .bdv o => o
  | .cdv o => o

end Sys2Proof
end

