-- ==== Sys2Proof/WellFormed.lean ====
section
/-! DEFINITION. Well-formed instructions: the 59 legal instruction words of 30_encoding.md R68. -/

namespace Sys2Proof

/-- A legal combo operand is 0 to 6; operand 7 "is invalid and must never appear in a well-formed program" (R66). -/
def comboLegal (o : U3) : Bool := o != 7

/-- The legal instruction words. The five combo opcodes refuse operand 7 (octal 07, 27, 57, 67, 77; R66, R68);
a literal or ignored operand is legal at every value (R64, R67). -/
def Instr.wellFormed : Instr → Bool
  | .adv o => comboLegal o
  | .bxl _ => true
  | .bst o => comboLegal o
  | .jnz _ => true
  | .bxc _ => true
  | .out o => comboLegal o
  | .bdv o => comboLegal o
  | .cdv o => comboLegal o

end Sys2Proof
end

