-- ==== Sys2Proof/Decode.lean ====
section
/-! DEFINITION. The decoder, the encoder after it, and the opcode table of 30_encoding.md R62 as data. -/

namespace Sys2Proof

/-- The three operand kinds of R63. -/
inductive OperandKind
  | combo
  | literal
  | ignored
  deriving DecidableEq, Repr

/-- One row of the opcode map of R62: a 6-bit instruction word `w` is this instruction when
`w AND mask = pattern`. -/
structure OpcodeRow where
  mnemonic : String
  mask : BitVec 6
  pattern : BitVec 6
  kind : OperandKind
  deriving DecidableEq, Repr

/-- The opcode map of R62, in opcode order; all eight opcodes are assigned. -/
def opcodeTable : List OpcodeRow :=
  [ ⟨"adv", 0b111000, 0b000000, .combo⟩,
    ⟨"bxl", 0b111000, 0b001000, .literal⟩,
    ⟨"bst", 0b111000, 0b010000, .combo⟩,
    ⟨"jnz", 0b111000, 0b011000, .literal⟩,
    ⟨"bxc", 0b111000, 0b100000, .ignored⟩,
    ⟨"out", 0b111000, 0b101000, .combo⟩,
    ⟨"bdv", 0b111000, 0b110000, .combo⟩,
    ⟨"cdv", 0b111000, 0b111000, .combo⟩ ]

/-- Does the instruction word `w` match the row (R62)? -/
def OpcodeRow.hits (row : OpcodeRow) (w : BitVec 6) : Bool := w &&& row.mask == row.pattern

/-- Dispatch on the opcode cell (R62, R83): total over the eight opcodes, no default arm. -/
def decodePair (opcode operand : U3) : Instr :=
  match opcode.toFin with
  | 0 => .adv operand
  | 1 => .bxl operand
  | 2 => .bst operand
  | 3 => .jnz operand
  | 4 => .bxc operand
  | 5 => .out operand
  | 6 => .bdv operand
  | 7 => .cdv operand

/-- What the decoder answers on a list of cells given as naturals. -/
inductive DecodeResult
  /-- the first two cells are this instruction; `rest` is what follows them -/
  | instr (i : Instr) (rest : List Nat)
  /-- fewer than two cells: "no instruction can be fully read" (40_cycle.md R81) -/
  | truncated
  /-- the named cell of the pair is outside 0 to 7: DecodeFault(CellRange) (R69, 60_exceptions.md R142) -/
  | cellRange (value : Nat)
  deriving DecidableEq, Repr

/-- The decoder on any list of naturals. A cell wider than 3 bits is rejected by name, opcode cell first (R69, R70);
it cannot occur in the 3-bit hardware, where `decodePair` alone decodes. -/
def decode : List Nat → DecodeResult
  | opcode :: operand :: rest =>
    if Config.maxCell < opcode then .cellRange opcode
    else if Config.maxCell < operand then .cellRange operand
    else .instr (decodePair (BitVec.ofNat 3 opcode) (BitVec.ofNat 3 operand)) rest
  | [_] => .truncated
  | [] => .truncated

/-- The decoding of the 6-bit word `W = {opcode, operand}` of R61. -/
def decodeWord (w : BitVec 6) : Instr := decodePair (w.extractLsb' 3 3) (w.extractLsb' 0 3)

/-- The even-aligned reading of a program (R71, R73): consecutive pairs from cell 0. A trailing odd cell stands for
no instruction. -/
def decodeProgram : List U3 → List Instr
  | opcode :: operand :: rest => decodePair opcode operand :: decodeProgram rest
  | [_] => []
  | [] => []

/-- The two cells of a table word (R61): the opcode cell holds the bits from 3 up, the operand cell bits 2 to 0.
A word with a bit above bit 5 gives an opcode cell above 7. -/
def tableCells (nbits w : Nat) : List Nat :=
  let v := w % 2 ^ nbits
  [v / 8, v % 8]

/-- The instruction the decoder reads from a word numbered as spec/opcode_table.json numbers it (log entry 10). -/
def decodeTableWord (nbits w : Nat) : Option Instr :=
  match decode (tableCells nbits w) with
  | .instr i _ => some i
  | .truncated => none
  | .cellRange _ => none

/-! ### The encoder, from the same table (R60 to R62) -/

/-- The opcode cell of an instruction (R62). -/
def Instr.opcode : Instr → U3
  | .adv _ => 0
  | .bxl _ => 1
  | .bst _ => 2
  | .jnz _ => 3
  | .bxc _ => 4
  | .out _ => 5
  | .bdv _ => 6
  | .cdv _ => 7

/-- The two cells of an instruction, opcode first (R60; 20_memory.md R48). -/
def encode (i : Instr) : List U3 := [i.opcode, i.operand]

/-- The 6-bit instruction word `{opcode, operand}` (R61). -/
def encodeWord (i : Instr) : BitVec 6 := i.opcode ++ i.operand

/-- The cells of a sequence of instructions from cell 0. -/
def encodeProgram (is : List Instr) : List U3 := is.flatMap encode

/-- How the opcode uses the operand cell (R63): the opcode alone decides. -/
def Instr.kind : Instr → OperandKind
  | .adv _ => .combo
  | .bxl _ => .literal
  | .bst _ => .combo
  | .jnz _ => .literal
  | .bxc _ => .ignored
  | .out _ => .combo
  | .bdv _ => .combo
  | .cdv _ => .combo

/-- The mnemonic of an instruction (R62, R71). -/
def Instr.mnemonic : Instr → String
  | .adv _ => "adv"
  | .bxl _ => "bxl"
  | .bst _ => "bst"
  | .jnz _ => "jnz"
  | .bxc _ => "bxc"
  | .out _ => "out"
  | .bdv _ => "bdv"
  | .cdv _ => "cdv"

end Sys2Proof
end

