-- ==== Sys2Proof/Machine/Arith.lean ====
section
/-! DEFINITION. The arithmetic primitives of 00_scope.md section 7. -/

namespace Sys2Proof.Machine

/-- `tdiv(a, d)` for `d > 0`: division truncated toward zero, in the floor form R8 gives. -/
def tdiv (a d : Int) : Int := if 0 ≤ a then a / d else -((-a) / d)

/-- `pow2div(a, k) = tdiv(a, 2^k)`, whose value always fits the register (R9). For `k >= 64` "the result is `0`", so
the power need not be formed there; `Laws/Arith.lean` proves that the quotient is the exact one for every `k`. -/
def pow2div (a : Word) (k : Nat) : Word :=
  if 64 ≤ k then 0 else BitVec.ofInt 64 (tdiv a.toInt (2 ^ k))

/-- `mod8(v)`: "the low three bits `v[2:0]` of the two's complement representation of `v`" (R10). -/
def mod8 (v : Word) : U3 := v.extractLsb' 0 3

/-- `xor64(a, b)`: bit by bit exclusive OR of the two's complement patterns (R12). -/
def xor64 (a b : Word) : Word := a ^^^ b

/-- `bias` of R9: `2^k - 1` for a negative dividend, else 0. -/
def bias (a : Word) (k : Nat) : Int := if a.toInt < 0 then 2 ^ k - 1 else 0

/-- The equivalent bit-level form of `pow2div` that R9 gives for `k` in 0 to 63: add the bias, then shift right
arithmetically. No meaning uses it; an obligation states that it is the same function. -/
def pow2divByShift (a : Word) (k : Nat) : Word := (a + BitVec.ofInt 64 (bias a k)).sshiftRight k

end Sys2Proof.Machine
end

