-- ==== Sys2Proof/Machine/State.lean ====
section
/-! DEFINITION. The architectural state of an instance (10_state.md R33), construction (70_reset_and_hazards.md
R170, R171) and the closed types of the reasons a step can stop. -/

namespace Sys2Proof.Machine

/-- The causes `FSR.cause` can hold (60_exceptions.md R140). -/
inductive FaultCause
  /-- DecodeFault(InvalidCombo), code 1: combo operand 7 is resolved (R141) -/
  | invalidCombo
  /-- DecodeFault(CellRange), code 2: a fetched cell is outside 0 to 7; never raised in the 3-bit hardware (R142) -/
  | cellRange
  /-- ExponentFault(NegativeExponent), code 3: `combo(operand) < 0` in `adv`, `bdv`, `cdv` (R143) -/
  | negativeExponent
  deriving DecidableEq, Repr

/-- What `FSR` holds while `FSR.valid = 1` (10_state.md R27): the cause and the `pc` of the faulting instruction. -/
structure FaultRecord where
  cause : FaultCause
  fpc : Nat
  deriving DecidableEq, Repr

/-- The complete architectural state of an instance: the tuple `(pc, A, B, C, out, FSR)` together with the
immutable `prog` (10_state.md R33). -/
structure State where
  /-- the instruction pointer, a cell index (R23) -/
  pc : Nat
  /-- register A, `x[0]` (R20) -/
  a : Word
  /-- register B, `x[1]` (R20) -/
  b : Word
  /-- register C, `x[2]` (R20) -/
  c : Word
  /-- the output accumulator, oldest value first (R29, R30) -/
  out : List U3
  /-- the fault status register: none is `valid = 0`, some is `valid = 1` (R27) -/
  fsr : Option FaultRecord
  /-- program memory, cell 0 first; LEN is its length (R31) -/
  prog : List U3
deriving DecidableEq, Repr

/-- LEN: the number of cells of program memory (R31). -/
abbrev State.len (s : State) : Nat := s.prog.length

/-- Why a step stops. -/
inductive Fault
  /-- Raised by `step` on a state whose FSR is valid: "A step applied to a faulted state (`FSR.valid = 1`) returns
  `Faulted(FSR.cause)` and changes nothing" (40_cycle.md R87). Safe: the spec says that the machine stops there.
  The step that RAISES a fault is a next state, the one in which FSR is set (log entry 4). -/
  | aborted (cause : FaultCause) (fpc : Nat)
  deriving DecidableEq, Repr

/-- Why a step is refused. -/
inductive Refusal
  /-- Raised by an arm of `exec` whose instruction has no meaning yet. Safe. No arm does: all eight have one. -/
  | notModelled (mnemonic : String)
  deriving DecidableEq, Repr

/-- Construction, the only reset (R34, R170, R171): the program and the three initial register values are its
inputs, `pc` is 0, the output is empty, FSR is not valid. -/
def State.construct (prog : List U3) (a0 b0 c0 : Word) : State :=
  { pc := Config.resetPc, a := a0, b := b0, c := c0, out := [], fsr := none, prog := prog }

/-- The machine right after reset, for inputs of construction that the host has not chosen: the empty program and
A0 = B0 = C0 = 0. DESIGN CHOICE, unsafe (log entry 1): the spec makes all four mandatory inputs and gives no default
(R34). A program comes to run by `State.construct` (log entry 2). -/
def State.reset : State := State.construct [] 0 0 0

end Sys2Proof.Machine
end

