-- ==== Sys2Proof/Machine/Ops.lean ====
section
/-! DEFINITION. The named operations over memory, registers, `pc` and output, and taking a fault. -/

namespace Sys2Proof.Machine

/-! ### Program memory (20_memory.md) -/

/-- `MemRead(addr, n)`: the cells at `addr` to `addr + n - 1`; defined only when `addr + n <= LEN` (R41). An index at
or beyond LEN "holds nothing" (R46). -/
def memRead (prog : List U3) (addr n : Nat) : Option (List U3) :=
  if addr + n ≤ prog.length then some ((prog.drop addr).take n) else none

/-- Program memory as address and cell pairs, lowest address first: the canonical listing that a dense list of cells
stands for (log entry 5). -/
def memListing (prog : List U3) : List (Nat × U3) := prog.mapIdx fun i v => (i, v)

/-- The canonical form of a listing: its addresses are 0, 1, 2, ... with no gap and no repeat (R46). -/
def Memory.wf (m : List (Nat × U3)) : Bool := m.map Prod.fst == List.range m.length

/-- Program memory with a pair of cells placed at `addr`. No instruction does this (R42): it stands for the host's
load of a program (`State.withFetchWord`; log entries 2 and 10). A gap below `addr` is filled with cells 0. -/
def placePair (prog : List U3) (addr : Nat) (opcode operand : U3) : List U3 :=
  prog.take addr ++ List.replicate (addr - prog.length) 0 ++ [opcode, operand] ++ prog.drop (addr + 2)

/-! ### Registers (10_state.md R20) -/

/-- The three registers by name. -/
inductive Reg
  | a
  | b
  | c
  deriving DecidableEq, Repr

/-- The numbering `x[i]` of R20: A, B, C are `x[0]`, `x[1]`, `x[2]`. -/
def Reg.ofIndex (i : Fin 3) : Reg :=
  match i with
  | 0 => .a
  | 1 => .b
  | 2 => .c

/-- A register read; no register is hardwired (R20). -/
def State.reg (s : State) (r : Reg) : Word :=
  match r with
  | .a => s.a
  | .b => s.b
  | .c => s.c

/-- A register write; no write is discarded (R20). -/
def State.setReg (s : State) (r : Reg) (v : Word) : State :=
  match r with
  | .a => { s with a := v }
  | .b => { s with b := v }
  | .c => { s with c := v }

/-! ### `pc` and output -/

/-- The normal advance `pc <- pc + 2`, the last action of a step that took no jump (40_cycle.md R84). -/
def State.advance (s : State) : State := { s with pc := s.pc + Config.ilen }

/-- A taken jump: `pc <- target`, with no advance after it (R84). -/
def State.jumpTo (s : State) (target : Nat) : State := { s with pc := target }

/-- `OutAppend(v)`: `out <- out ++ [v]`; it always succeeds (20_memory.md R54, 10_state.md R30). -/
def State.outAppend (s : State) (v : U3) : State := { s with out := s.out ++ [v] }

/-! ### Taking a fault (60_exceptions.md R147)

There is no return beside it: "No instruction and no host operation clears `FSR` or resumes execution past the
faulting instruction" (R148); only `State.construct` gives a state with FSR not valid. -/

/-- Fault entry: "`FSR <- (valid = 1, cause = code, fpc = pc)` ... Nothing else changes" (R147). -/
def State.enterFault (s : State) (cause : FaultCause) : State :=
  { s with fsr := some { cause := cause, fpc := s.pc } }

/-- The instruction raises a fault: the next state is the one fault entry leaves. No advance follows (R84). -/
def raiseFault (cause : FaultCause) (s : State) : Host.Outcome State Fault Refusal :=
  .next (s.enterFault cause)

/-- The 2-bit cause code of R140 and R27; 0 is never recorded. -/
def causeCode (cause : FaultCause) : BitVec 2 :=
  match cause with
  | .invalidCombo => 1
  | .cellRange => 2
  | .negativeExponent => 3

end Sys2Proof.Machine
end

