-- ==== Sys2Proof/Machine/Operands.lean ====
section
/-! DEFINITION. Operand resolution (30_encoding.md section 3): literal and combo. The ignored operand of `bxc` has no
resolution (R63). -/

namespace Sys2Proof.Machine

/-- Literal resolution: `lit(o) = zext_64(o)`, "never sign-extended, scaled or shifted" (R64). -/
def lit (o : U3) : Word := o.setWidth 64

/-- Combo resolution, the table of R65: 0 to 3 are constants, 4, 5, 6 the current A, B, C, 7 is invalid (none). -/
def combo (o : U3) (s : State) : Option Word :=
  match o.toFin with
  | 0 => some 0
  | 1 => some 1
  | 2 => some 2
  | 3 => some 3
  | 4 => some s.a
  | 5 => some s.b
  | 6 => some s.c
  | 7 => none

/-- An instruction of combo kind: resolve the operand, raising InvalidCombo before anything is written when it is 7
(R66; 60_exceptions.md R141), and go on with its value. -/
def withCombo (o : U3) (s : State) (k : Word → Host.Outcome State Fault Refusal) : Host.Outcome State Fault Refusal :=
  match combo o s with
  | none => raiseFault .invalidCombo s
  | some v => k v

end Sys2Proof.Machine
end

