-- ==== Sys2Proof/Machine/Bitwise.lean ====
section
/-! DEFINITION. The register-B family: bxl, bst, bxc (42_bitwise.md). -/

namespace Sys2Proof.Machine

/-- `bxl`, opcode 1: `B <- xor64(B, lit(o))`; the operand is never resolved as a combo operand (R110). -/
def execBxl (o : U3) (s : State) : Host.Outcome State Fault Refusal :=
  .next ((s.setReg .b (xor64 s.b (lit o))).advance)

/-- `bst`, opcode 2: `B <- mod8(combo(o))` (R111). -/
def execBst (o : U3) (s : State) : Host.Outcome State Fault Refusal :=
  withCombo o s fun v => .next ((s.setReg .b ((mod8 v).setWidth 64)).advance)

/-- `bxc`, opcode 4: `B <- xor64(B, C)`; the operand cell is fetched and its value ignored (R112). -/
def execBxc (_o : U3) (s : State) : Host.Outcome State Fault Refusal :=
  .next ((s.setReg .b (xor64 s.b s.c)).advance)

end Sys2Proof.Machine
end

