-- ==== Sys2Proof/Machine/Flags.lean ====
section
/-! DEFINITION. "There are no flags, condition codes or predicate registers" (10_state.md R26). The one condition an
instruction tests, and the halt condition, which is a predicate and no stored bit (R28). -/

namespace Sys2Proof.Machine

/-- The condition of `jnz`: the full 64-bit value of A is not 0, positive or negative (R26, 43_control.md R120). -/
def jumpTaken (s : State) : Bool := s.a != 0

/-- `halted(s) := s.pc + 1 >= LEN` (R28; 40_cycle.md R81). -/
def halted (s : State) : Bool := decide (s.len ≤ s.pc + 1)

end Sys2Proof.Machine
end

