-- ==== Sys2Proof/Machine/Control.lean ====
section
/-! DEFINITION. Control transfer: jnz (43_control.md). -/

namespace Sys2Proof.Machine

/-- `jnz`, opcode 3: when A is not 0, `pc <- lit(o)` and no advance; else the normal advance (R120). The target is
absolute and is not checked in any way (R121). -/
def execJnz (o : U3) (s : State) : Host.Outcome State Fault Refusal :=
  if jumpTaken s then .next (s.jumpTo (lit o).toNat) else .next s.advance

end Sys2Proof.Machine
end

