-- ==== Sys2Proof/Machine/Division.lean ====
section
/-! DEFINITION. The division family: adv, bdv, cdv (41_division.md). -/

namespace Sys2Proof.Machine

/-- What the three have in common (R100): resolve the exponent (InvalidCombo), refuse a negative one
(NegativeExponent, R105), and only then write `pow2div(A, k)` to the destination and advance. -/
def divideInto (dest : Reg) (o : U3) (s : State) : Host.Outcome State Fault Refusal :=
  withCombo o s fun k =>
    if k.toInt < 0 then raiseFault .negativeExponent s
    else .next ((s.setReg dest (pow2div s.a k.toNat)).advance)

/-- `adv`, opcode 0: `A <- A / 2^combo(o)` (R101). -/
def execAdv (o : U3) (s : State) : Host.Outcome State Fault Refusal := divideInto .a o s

/-- `bdv`, opcode 6: `B <- A / 2^combo(o)` (R102). -/
def execBdv (o : U3) (s : State) : Host.Outcome State Fault Refusal := divideInto .b o s

/-- `cdv`, opcode 7: `C <- A / 2^combo(o)` (R103). -/
def execCdv (o : U3) (s : State) : Host.Outcome State Fault Refusal := divideInto .c o s

end Sys2Proof.Machine
end

