-- ==== Sys2Proof/Machine/Output.lean ====
section
/-! DEFINITION. Output: out (44_output.md). -/

namespace Sys2Proof.Machine

/-- `out`, opcode 5: `OutAppend(mod8(combo(o)))` (R130). -/
def execOut (o : U3) (s : State) : Host.Outcome State Fault Refusal :=
  withCombo o s fun v => .next ((s.outAppend (mod8 v)).advance)

end Sys2Proof.Machine
end

