-- ==== Sys2Proof/Machine/Dispatch.lean ====
section
/-! DEFINITION. One arm per constructor of Instr: the dispatch of 40_cycle.md R83. -/

namespace Sys2Proof.Machine

def exec (i : Instr) (s : State) : Host.Outcome State Fault Refusal :=
  match i with
  | .adv o => Sys2Proof.Machine.execAdv o s
  | .bxl o => Sys2Proof.Machine.execBxl o s
  | .bst o => Sys2Proof.Machine.execBst o s
  | .jnz o => Sys2Proof.Machine.execJnz o s
  | .bxc o => Sys2Proof.Machine.execBxc o s
  | .out o => Sys2Proof.Machine.execOut o s
  | .bdv o => Sys2Proof.Machine.execBdv o s
  | .cdv o => Sys2Proof.Machine.execCdv o s

end Sys2Proof.Machine
end

