-- ==== Sys2Proof/Machine/Fetch.lean ====
section
/-! DEFINITION. Fetching and decoding the pair at `pc` (40_cycle.md R81 to R83), and placing one there. -/

namespace Sys2Proof.Machine

/-- Fetch: `[opcode, operand] <- MemRead(pc, 2)`, both cells for every opcode (R82), decoded (R83). -/
def fetch (s : State) : Option Instr :=
  match memRead s.prog s.pc Config.ilen with
  | some [opcode, operand] => some (decodePair opcode operand)
  | _ => none

/-- The instruction the next step executes: none when the halt test holds, "nothing is fetched" (R81). There is no
parity condition on `pc` (20_memory.md R44) and the meaning of the pair depends on nothing else (30_encoding.md R73). -/
def nextInstr (s : State) : Option Instr := if halted s then none else fetch s

/-- `s` with the two cells of the table word `w` where the next step fetches: at `pc`, in a program long enough to
hold them, in an instance that no fault has stopped (log entry 10). -/
def placeFetchWord (s : State) (nbits w : Nat) : State :=
  let v := w % 2 ^ nbits
  { s with prog := placePair s.prog s.pc (BitVec.ofNat 3 (v / 8)) (BitVec.ofNat 3 v), fsr := none }

end Sys2Proof.Machine
end

