-- ==== Sys2Proof/Machine/Step.lean ====
section
/-! DEFINITION. The step (40_cycle.md R80) and the placing of one instruction word. -/

namespace Sys2Proof.Machine

/-- One step, in the order of R80 and 60_exceptions.md R146: a faulted instance stays as it is and reports its fault
(R87); a halted one stays as it is (R81, R86; log entry 3); otherwise the instruction at `pc` is fetched, decoded and
executed. A fault that it raises is the next state, with FSR set (R147; log entry 4). The three reports of the spec
are `cycle` in Machine/Cycle.lean. -/
def step (s : State) : Host.Outcome State Fault Refusal :=
  match s.fsr with
  | some f => .fault (.aborted f.cause f.fpc)
  | none =>
    match nextInstr s with
    | none => .next s
    | some i => exec i s

/-- `s` with the table word `w` stored where `step` fetches its next instruction (log entry 10). -/
def State.withFetchWord (s : State) (nbits w : Nat) : State := placeFetchWord s nbits w

end Sys2Proof.Machine
end

