-- ==== Sys2Proof/Machine/Cycle.lean ====
section
/-! DEFINITION. The three reports of the spec's `step` (its source's `cycle`) with the state each leaves
(40_cycle.md R80, R85). -/

namespace Sys2Proof.Machine

/-- What the host is told: `Stepped`, `Halted` or `Faulted(cause)` (R80; 70_reset_and_hazards.md R176). -/
inductive Report
  | stepped
  | halted
  | faulted (cause : FaultCause)
  deriving DecidableEq, Repr

/-- The state `step` leaves: where it stops with a fault or a refusal, the state it found. -/
def stepState (s : State) : State :=
  match step s with
  | .next t => t
  | .fault _ => s
  | .refused _ => s

/-- One step with its report. The report `Halted` describes the state the step FOUND (R85); `Faulted` is reported by
the step that raises the fault (60_exceptions.md R149) and by every later one (R87). -/
def cycle (s : State) : Report × State :=
  match s.fsr with
  | some f => (.faulted f.cause, s)
  | none =>
    if halted s then (.halted, s)
    else
      match (stepState s).fsr with
      | some f => (.faulted f.cause, stepState s)
      | none => (.stepped, stepState s)

end Sys2Proof.Machine
end

