-- ==== Sys2Proof/Machine/Run.lean ====
section
/-! DEFINITION. Run to completion and the end of a run (40_cycle.md R88, R94).

A run need not end and the machine has no step limit (R89): `runFor` is `run` watched by a host that gives up after
`n` steps (70_reset_and_hazards.md R178), and the three ways a run goes are propositions with no bound. -/

namespace Sys2Proof.Machine

/-- What `run` returns (R88). -/
inductive Ending
  | done (out : List U3)
  | aborted (cause : FaultCause) (fpc : Nat)
  deriving DecidableEq, Repr

/-- The value `FSR.fpc` of a faulted state; `pc` keeps the same value (10_state.md R27). -/
def faultPc (s : State) : Nat :=
  match s.fsr with
  | some f => f.fpc
  | none => s.pc

/-- `run` of R88 for at most `n` steps: none says that it has not returned by then. -/
def runFor : Nat → State → Option Ending
  | 0, _ => none
  | n + 1, s =>
    match cycle s with
    | (.stepped, t) => runFor n t
    | (.halted, t) => some (.done t.out)
    | (.faulted cause, t) => some (.aborted cause (faultPc t))

/-- The state after `n` `Stepped` steps: the sequence `s0, s1, ...` of R94; none where one of them is not `Stepped`. -/
def stepsFor : Nat → State → Option State
  | 0, s => some s
  | n + 1, s =>
    match cycle s with
    | (.stepped, t) => stepsFor n t
    | (.halted, _) => none
    | (.faulted _, _) => none

/-- The run from `s` ends normally in the final state `t` (R94). -/
def EndsNormally (s t : State) : Prop := ∃ n, stepsFor n s = some t ∧ cycle t = (.halted, t)

/-- The run from `s` ends by fault; the final state `t` has FSR set (R94). -/
def EndsByFault (s t : State) : Prop := ∃ n u cause, stepsFor n s = some u ∧ cycle u = (.faulted cause, t)

/-- The run from `s` does not end: every prefix of it goes on (R89, R94). -/
def DoesNotEnd (s : State) : Prop := ∀ n, (stepsFor n s).isSome = true

end Sys2Proof.Machine
end

