-- ==== Sys2Proof/Machine/Operations.lean ====
section
/-! DEFINITION. The rest of the host interface (70_reset_and_hazards.md section 2): construction from integers with
its domain, and observation. `step` is Machine/Step.lean and Machine/Cycle.lean, `run` is Machine/Run.lean. -/

namespace Sys2Proof.Machine

/-- Is an integer a cell value, 0 to 7 (R172)? -/
def cellInDomain (v : Int) : Bool := decide (0 ≤ v ∧ v ≤ Config.maxCell)

/-- Is an integer a register value, MIN to MAX (R172)? -/
def wordInDomain (v : Int) : Bool := decide (Config.minWord ≤ v ∧ v ≤ Config.maxWord)

/-- Construction from integers: it refuses a cell outside 0 to 7 and a register value outside MIN to MAX, the first
of the two treatments of cells that R172 allows (log entry 11). -/
def construct? (cells : List Int) (a0 b0 c0 : Int) : Option State :=
  if cells.all cellInDomain && wordInDomain a0 && wordInDomain b0 && wordInDomain c0 then
    some (State.construct (cells.map (BitVec.ofInt 3)) (BitVec.ofInt 64 a0) (BitVec.ofInt 64 b0) (BitVec.ofInt 64 c0))
  else none

/-- The three run statuses, derived and not stored (10_state.md R28). -/
inductive RunStatus
  | running
  | halted
  | faulted (cause : FaultCause) (fpc : Nat)
  deriving DecidableEq, Repr

/-- FAULTED takes precedence over HALTED (R28). -/
def status (s : State) : RunStatus :=
  match s.fsr with
  | some f => .faulted f.cause f.fpc
  | none => if halted s then .halted else .running

/-- `FSR.cause` as its 2-bit code and `FSR.fpc`, both meaningful only while `FSR.valid = 1` (10_state.md R27). -/
def fsrFields (s : State) : Option (BitVec 2 × Nat) := s.fsr.map fun f => (causeCode f.cause, f.fpc)

/-- What the host may read between operations (R177): registers as the integers they stand for. -/
structure Observation where
  out : List U3
  a : Int
  b : Int
  c : Int
  pc : Nat
  status : RunStatus
  fsr : Option (BitVec 2 × Nat)
  prog : List U3
  len : Nat
  deriving DecidableEq, Repr

/-- `observe`: read-only, at any step boundary (R176, R177). -/
def observe (s : State) : Observation :=
  { out := s.out, a := s.a.toInt, b := s.b.toInt, c := s.c.toInt, pc := s.pc, status := status s,
    fsr := fsrFields s, prog := s.prog, len := s.len }

/-- The result of a program: the output at a normal halt; a FAULTED or RUNNING instance has none (40_cycle.md R91). -/
def result? (s : State) : Option (List U3) :=
  match status s with
  | .halted => some s.out
  | .running => none
  | .faulted _ _ => none

end Sys2Proof.Machine
end

