-- ==== Sys2Proof/Machine/WideCells.lean ====
section
/-! DEFINITION. The step of a model whose cells are wider than 3 bits (30_encoding.md R69, R70; 60_exceptions.md
R142). The hardware's cells are 3 bits wide and `step` is the hardware's step; this one states what the spec says of
the wide-cell case, and an obligation states that the two agree on cells 0 to 7. -/

namespace Sys2Proof.Machine

/-- One step of the instance `s` whose program memory is `cells` instead of `s.prog` (R31: the program is "a
parameter of the step function rather than mutable state"). The CellRange check comes after the halt test and before
dispatch, for both cells of the pair whatever the opcode, and a cell that is never fetched raises nothing (R69). -/
def wideStep (cells : List Nat) (s : State) : Host.Outcome State Fault Refusal :=
  match s.fsr with
  | some f => .fault (.aborted f.cause f.fpc)
  | none =>
    match decode (cells.drop s.pc) with
    | .truncated => .next s
    | .cellRange _ => raiseFault .cellRange s
    | .instr i _ => exec i s

end Sys2Proof.Machine
end

