-- ==== Sys2Proof/Safety.lean ====
section
/-! DEFINITION. What counts as a safe state and a safe program, in the terms the statements use. -/

namespace Sys2Proof.Machine

/-- All three registers are non-negative, the premise of 10_state.md R35. -/
abbrev NonNegative (s : State) : Prop := 0 ≤ s.a.toInt ∧ 0 ≤ s.b.toInt ∧ 0 ≤ s.c.toInt

/-- `pc <= max(LEN, 7)` (10_state.md R25). -/
abbrev PcBounded (s : State) : Prop := s.pc ≤ max s.len Config.maxJumpTarget

/-- What a valid FSR holds in the 3-bit hardware: the `pc` the machine keeps (R27), at which an instruction could be
read (R28), and a cause other than CellRange (60_exceptions.md R142). -/
abbrev FsrConsistent (s : State) : Prop :=
  match s.fsr with
  | none => True
  | some f => f.fpc = s.pc ∧ f.fpc + 1 < s.len ∧ f.cause ≠ .cellRange

/-- The invariant of every state of a run. -/
abbrev Reasonable (s : State) : Prop := PcBounded s ∧ FsrConsistent s

/-- The sufficient static condition of 30_encoding.md R74: no two neighbouring cells, in either alignment, are one of
the five illegal words. -/
def staticallyWellFormed : List U3 → Bool
  | opcode :: operand :: rest => (decodePair opcode operand).wellFormed && staticallyWellFormed (operand :: rest)
  | [_] => true
  | [] => true

/-- No fault has stopped the instance, and none can: the program meets the static condition of 30_encoding.md R74 and
the registers the premise of 10_state.md R35. -/
abbrev FaultFree (s : State) : Prop := staticallyWellFormed s.prog = true ∧ NonNegative s ∧ s.fsr = none

/-- The next step takes a jump: it executes a `jnz` and A is not 0 (40_cycle.md R84). -/
def takesJump (s : State) : Prop := s.fsr = none ∧ jumpTaken s = true ∧ ∃ o, nextInstr s = some (.jnz o)

/-- The registers an instruction may read, implicitly or through its combo operand: the table of 10_state.md R21. -/
def readsOf (i : Instr) : List Reg :=
  let viaCombo (o : U3) : List Reg :=
    match o.toFin with
    | 4 => [.a]
    | 5 => [.b]
    | 6 => [.c]
    | _ => []
  match i with
  | .adv o => .a :: viaCombo o
  | .bxl _ => [.b]
  | .bst o => viaCombo o
  | .jnz _ => [.a]
  | .bxc _ => [.b, .c]
  | .out o => viaCombo o
  | .bdv o => .a :: viaCombo o
  | .cdv o => .a :: viaCombo o

/-- The register an instruction writes, if any: the table of 10_state.md R21. -/
def writesOf (i : Instr) : List Reg :=
  match i with
  | .adv _ => [.a]
  | .bxl _ => [.b]
  | .bst _ => [.b]
  | .jnz _ => []
  | .bxc _ => [.b]
  | .out _ => []
  | .bdv _ => [.b]
  | .cdv _ => [.c]

end Sys2Proof.Machine
end

