-- ==== Sys2Proof/Certificates/Slice0/Obligations.lean ====
section
/-! DEFINITION. The statements for the provers. Each docstring names the rule or the section it formalises. A state
whose FSR is set is a state of a faulted instance; a next state with FSR newly set is fault entry (log entry 4). -/

open Sys2Proof Sys2Proof.Machine

/-! ### Encoding -/

/-- 30_encoding.md sections 1 and 2: decoding an encoded instruction gives it back, from its cells and from its word,
whatever follows it; and every 6-bit word is the encoding of what it decodes to. -/
def Obligations.InstructionWordsRoundTrip : Prop :=
  (∀ (i : Instr) (rest : List Nat), decode ((encode i).map BitVec.toNat ++ rest) = .instr i rest) ∧
  (∀ (i : Instr) (nbits : Nat), 6 ≤ nbits → decodeTableWord nbits (encodeWord i).toNat = some i) ∧
  (∀ w : BitVec 6, encodeWord (decodeWord w) = w)

/-- 30_encoding.md sections 1 and 5: the even-aligned reading of an encoded program is the program, also with a
trailing odd cell, and a program of even length is the encoding of its reading. -/
def Obligations.ProgramsRoundTrip : Prop :=
  (∀ is : List Instr, decodeProgram (encodeProgram is) = is) ∧
  (∀ (is : List Instr) (v : U3), decodeProgram (encodeProgram is ++ [v]) = is) ∧
  (∀ cells : List U3, cells.length % 2 = 0 → encodeProgram (decodeProgram cells) = cells)

/-- 30_encoding.md section 1, 20_memory.md section 2: the step runs the instruction whose encoding stands at `pc`, at
any cell index, even or odd, whatever stands before and after it; and in an encoded program the instruction at cell
`2 * j` is the `j`-th. -/
def Obligations.EncodedInstructionsAreFetched : Prop :=
  (∀ (s : State) (before after : List U3) (i : Instr), s.fsr = none → s.prog = before ++ encode i ++ after →
    s.pc = before.length → nextInstr s = some i ∧ step s = exec i s) ∧
  (∀ (s : State) (is : List Instr) (j : Nat) (i : Instr), s.fsr = none → s.prog = encodeProgram is → s.pc = 2 * j →
    is[j]? = some i → nextInstr s = some i ∧ step s = exec i s)

/-- 30_encoding.md section 2: every 6-bit word hits exactly one row of the opcode map, the row of the instruction it
decodes to; every mask is 0b111000 and the match is 8 times the opcode. -/
def Obligations.OpcodeMapIsTotalAndUnambiguous : Prop :=
  (∀ w : BitVec 6, (opcodeTable.filter fun row => row.hits w).map (fun row => (row.mnemonic, row.kind)) =
    [((decodeWord w).mnemonic, (decodeWord w).kind)]) ∧
  (∀ row ∈ opcodeTable, row.mask = 0b111000) ∧
  opcodeTable.map (fun row => row.pattern.toNat) = [0, 8, 16, 24, 32, 40, 48, 56]

/-- 95_test_vectors.md section 2.1 (E1 to E16): words written in octal decode to the instructions they stand for. -/
def Obligations.VectorWordsDecode : Prop :=
  decodeTableWord 8 0o01 = some (.adv 1) ∧ decodeTableWord 8 0o17 = some (.bxl 7) ∧
  decodeTableWord 8 0o26 = some (.bst 6) ∧ decodeTableWord 8 0o30 = some (.jnz 0) ∧
  decodeTableWord 8 0o47 = some (.bxc 7) ∧ decodeTableWord 8 0o54 = some (.out 4) ∧
  decodeTableWord 8 0o65 = some (.bdv 5) ∧ decodeTableWord 8 0o73 = some (.cdv 3) ∧
  decodeTableWord 8 0o07 = some (.adv 7) ∧ decodeTableWord 8 0o34 = some (.jnz 4) ∧
  decodeTableWord 8 0o14 = some (.bxl 4) ∧ decodeTableWord 8 0o77 = some (.cdv 7)

/-- 30_encoding.md section 4: of the 64 words exactly the five with a combo opcode and operand 7 are illegal. -/
def Obligations.ExactlyFiveWordsAreIllegal : Prop :=
  ∀ w : BitVec 6, (decodeWord w).wellFormed = false ↔ w ∈ [0o07, 0o27, 0o57, 0o67, 0o77]

/-- 30_encoding.md section 4, 92_eei_decisions.md D5 (the spec's own decision; log entry 12): the decoder on naturals
rejects by name a pair with a cell outside 0 to 7, opcode cell first, and a list of fewer than two cells. -/
def Obligations.WideDecoderRejectsByName : Prop :=
  (∀ cells : List Nat, decode cells = .truncated ↔ cells.length < 2) ∧
  (∀ (p q : Nat) (rest : List Nat),
    (7 < p → decode (p :: q :: rest) = .cellRange p) ∧
    (p ≤ 7 → 7 < q → decode (p :: q :: rest) = .cellRange q) ∧
    (p ≤ 7 → q ≤ 7 → decode (p :: q :: rest) =
      .instr (decodePair (BitVec.ofNat 3 p) (BitVec.ofNat 3 q)) rest))

/-- 40_cycle.md section 1: where the cells at `pc` are `p` and `q` and no fault has stopped the instance, the step is
the execution of the instruction they decode to, at that state, with nothing around it. -/
def Obligations.StepRunsTheDecodedInstruction : Prop :=
  ∀ (s : State) (p q : U3), s.fsr = none → memRead s.prog s.pc 2 = some [p, q] → step s = exec (decodePair p q) s

/-- The host's placed word (log entry 10, the model's own convention): the next step runs the instruction the decoder
reads from the word, and the registers, `pc` and output are as they were. -/
def Obligations.PlacedWordIsTheNextInstruction : Prop :=
  ∀ (s : State) (nbits w : Nat) (i : Instr), decodeTableWord nbits w = some i →
    step (s.withFetchWord nbits w) = exec i (s.withFetchWord nbits w) ∧
    (s.withFetchWord nbits w).a = s.a ∧ (s.withFetchWord nbits w).b = s.b ∧ (s.withFetchWord nbits w).c = s.c ∧
    (s.withFetchWord nbits w).pc = s.pc ∧ (s.withFetchWord nbits w).out = s.out

/-! ### Arithmetic -/

/-- R8: `tdiv` for a positive divisor, in the floor form, as the unique quotient whose remainder is zero or of the
sign of the dividend, and at the worked value; every divisor of the machine is positive. -/
def Obligations.TdivTruncatesTowardZero : Prop :=
  (∀ a d : Int, 0 < d →
    (0 ≤ a → tdiv a d = a / d) ∧ (a < 0 → tdiv a d = -((-a) / d)) ∧
    (∀ q : Int, q = tdiv a d ↔ ∃ r : Int, a = q * d + r ∧ |r| < d ∧ (r = 0 ∨ r.sign = a.sign))) ∧
  tdiv (-7) 2 = -3 ∧
  (∀ k : Nat, (0 : Int) < 2 ^ k)

/-- 00_scope.md section 7 (`pow2div`), 92_eei_decisions.md D3 (the spec's own decision for exponents of 63 and more;
log entry 7): the exact truncated quotient for every exponent, never greater in magnitude than the dividend. -/
def Obligations.Pow2divIsTheExactQuotient : Prop :=
  ∀ (a : Word) (k : Nat),
    (pow2div a k).toInt = tdiv a.toInt (2 ^ k) ∧
    (pow2div a k).toInt.natAbs ≤ a.toInt.natAbs ∧
    pow2div a 0 = a ∧
    (k = 63 → (pow2div a k).toInt = if a.toInt = Config.minWord then -1 else 0) ∧
    (64 ≤ k → pow2div a k = 0)

/-- 00_scope.md section 7 (`pow2div`): the biased arithmetic shift is the same function for exponents 0 to 63, and
the biased sum never leaves the range of a register. -/
def Obligations.BiasedShiftIsPow2div : Prop :=
  ∀ (a : Word) (k : Nat), k ≤ 63 →
    pow2divByShift a k = pow2div a k ∧
    Config.minWord ≤ a.toInt + bias a k ∧ a.toInt + bias a k ≤ Config.maxWord

/-- R106: for a non-negative dividend both plain shifts by `min(k, 63)` give the quotient; for a negative one the
biased shift does, and the plain arithmetic shift differs exactly when the dividend is no multiple of the power,
where the quotient is the floor plus one. -/
def Obligations.PlainShiftDivergesOnNegatives : Prop :=
  ∀ (a : Word) (k : Nat),
    (0 ≤ a.toInt → a.sshiftRight (min k 63) = pow2div a k ∧ a >>> (min k 63) = pow2div a k) ∧
    (a.toInt < 0 → k ≤ 63 → pow2divByShift a k = pow2div a k) ∧
    (a.sshiftRight (min k 63) ≠ pow2div a k ↔ a.toInt < 0 ∧ ¬ (2 : Int) ^ k ∣ a.toInt) ∧
    (a.toInt < 0 → ¬ (2 : Int) ^ k ∣ a.toInt → (pow2div a k).toInt = a.toInt / 2 ^ k + 1)

/-- R12: `xor64` bit by bit, its laws, the sign of its result, and the worked values. -/
def Obligations.Xor64IsBitwise : Prop :=
  (∀ a b : Word,
    (∀ i, i < 64 → (xor64 a b).getLsbD i = (a.getLsbD i != b.getLsbD i)) ∧
    (Config.minWord ≤ (xor64 a b).toInt ∧ (xor64 a b).toInt ≤ Config.maxWord) ∧
    xor64 a 0 = a ∧ xor64 a a = 0 ∧ xor64 a b = xor64 b a ∧
    (∀ c : Word, xor64 (xor64 a b) c = xor64 a (xor64 b c)) ∧
    (0 ≤ a.toInt → 0 ≤ b.toInt → 0 ≤ (xor64 a b).toInt) ∧
    ((xor64 a b).toInt < 0 ↔ ¬ (a.toInt < 0 ↔ b.toInt < 0))) ∧
  xor64 5 6 = 3 ∧ xor64 29 7 = 26 ∧ xor64 2024 43690 = 44354

/-- 00_scope.md section 7 (`mod8`), 92_eei_decisions.md D2 (the spec's own decision for negative values; log entry 7):
the residue 0 to 7 that differs from the value by a multiple of 8, unique, and equal to the low three bits. -/
def Obligations.Mod8IsTheResidue : Prop :=
  ∀ v : Word,
    (∀ m : Int, m = (mod8 v).toNat ↔ 0 ≤ m ∧ m ≤ 7 ∧ (8 : Int) ∣ v.toInt - m) ∧
    (mod8 v).toNat = v.toNat % 8

/-! ### Operand resolution -/

/-- R64: a literal operand is the raw operand value, zero-extended, 0 to 7, and every value is legal. -/
def Obligations.LiteralOperandIsZeroExtended : Prop :=
  ∀ o : U3, lit o = o.zeroExtend 64 ∧ (lit o).toInt = o.toNat ∧ 0 ≤ (lit o).toInt ∧ (lit o).toInt ≤ 7 ∧
    (Instr.bxl o).wellFormed = true ∧ (Instr.jnz o).wellFormed = true

/-- R65: the table of combo resolution; operand 7 raises InvalidCombo in whatever resolves it. -/
def Obligations.ComboOperandTable : Prop :=
  ∀ s : State,
    combo 0 s = some 0 ∧ combo 1 s = some 1 ∧ combo 2 s = some 2 ∧ combo 3 s = some 3 ∧
    combo 4 s = some s.a ∧ combo 5 s = some s.b ∧ combo 6 s = some s.c ∧
    (∀ k, withCombo 7 s k = .next (s.enterFault .invalidCombo)) ∧
    (∀ (j : Fin 3) (o : U3), o.toNat = j.val + 4 → combo o s = some (s.reg (Reg.ofIndex j)))

/-- R67: operand 7 is legal where it is not a combo operand: `bxl 7` XORs B with 7, `jnz 7` jumps to cell 7 when A is
not 0, `bxc 7` behaves as every other `bxc`; the words are octal 17, 37, 47. -/
def Obligations.SevenIsLegalWhenNotCombo : Prop :=
  (decodeTableWord 8 0o17 = some (.bxl 7) ∧ decodeTableWord 8 0o37 = some (.jnz 7) ∧
    decodeTableWord 8 0o47 = some (.bxc 7)) ∧
  ∀ s : State,
    exec (.bxl 7) s = .next { s with b := xor64 s.b 7, pc := s.pc + 2 } ∧
    (s.a ≠ 0 → exec (.jnz 7) s = .next { s with pc := 7 }) ∧
    (s.a = 0 → exec (.jnz 7) s = .next { s with pc := s.pc + 2 }) ∧
    (∀ o, exec (.bxc 7) s = exec (.bxc o) s)

/-! ### The instructions: result and frame in one equation -/

/-- 41_division.md section 2 (adv); exponents of 63 and more are the spec's decision D3 (log entry 7): with a legal
operand and a non-negative exponent `adv` writes the truncated quotient to A, advances, and changes nothing else. -/
def Obligations.AdvDividesA : Prop :=
  ∀ (o : U3) (s : State) (k : Word), combo o s = some k → 0 ≤ k.toInt →
    ∃ q : Word, exec (.adv o) s = .next { s with a := q, pc := s.pc + 2 } ∧
      q.toInt = s.a.toInt.tdiv (2 ^ k.toInt.toNat)

/-- 41_division.md section 2 (bdv); D3 as for `adv`: the quotient of A goes to B, A is not divided. -/
def Obligations.BdvDividesAIntoB : Prop :=
  ∀ (o : U3) (s : State) (k : Word), combo o s = some k → 0 ≤ k.toInt →
    ∃ q : Word, exec (.bdv o) s = .next { s with b := q, pc := s.pc + 2 } ∧
      q.toInt = s.a.toInt.tdiv (2 ^ k.toInt.toNat)

/-- 41_division.md section 2 (cdv); D3 as for `adv`: the quotient of A goes to C, A is not divided. -/
def Obligations.CdvDividesAIntoC : Prop :=
  ∀ (o : U3) (s : State) (k : Word), combo o s = some k → 0 ≤ k.toInt →
    ∃ q : Word, exec (.cdv o) s = .next { s with c := q, pc := s.pc + 2 } ∧
      q.toInt = s.a.toInt.tdiv (2 ^ k.toInt.toNat)

/-- 41_division.md section 1, 92_eei_decisions.md D4 and D9 (the spec's own decisions; log entry 7): a negative
exponent makes `adv`, `bdv` and `cdv` enter the NegativeExponent fault, which changes FSR and nothing else. -/
def Obligations.NegativeExponentIsAFault : Prop :=
  ∀ (o : U3) (s : State) (k : Word), combo o s = some k → k.toInt < 0 →
    exec (.adv o) s = .next { s with fsr := some { cause := .negativeExponent, fpc := s.pc } } ∧
    exec (.bdv o) s = .next { s with fsr := some { cause := .negativeExponent, fpc := s.pc } } ∧
    exec (.cdv o) s = .next { s with fsr := some { cause := .negativeExponent, fpc := s.pc } }

/-- 30_encoding.md section 3, 60_exceptions.md sections 1 and 4 (the state after a fault is the spec's decision D9; log
entry 7): combo operand 7 makes each of the five combo instructions enter the InvalidCombo fault. -/
def Obligations.ComboSevenIsAFault : Prop :=
  ∀ s : State,
    exec (.adv 7) s = .next { s with fsr := some { cause := .invalidCombo, fpc := s.pc } } ∧
    exec (.bst 7) s = .next { s with fsr := some { cause := .invalidCombo, fpc := s.pc } } ∧
    exec (.out 7) s = .next { s with fsr := some { cause := .invalidCombo, fpc := s.pc } } ∧
    exec (.bdv 7) s = .next { s with fsr := some { cause := .invalidCombo, fpc := s.pc } } ∧
    exec (.cdv 7) s = .next { s with fsr := some { cause := .invalidCombo, fpc := s.pc } }

/-- 41_division.md section 1 (same register as source and destination): the old value is used throughout; `adv 4`
gives 0 for every non-negative A. -/
def Obligations.DivisionReadsOldValues : Prop :=
  ∀ s : State,
    (0 ≤ s.a.toInt →
      exec (.adv 4) s = .next { s with a := 0, pc := s.pc + 2 } ∧
      exec (.bdv 4) s = .next { s with b := 0, pc := s.pc + 2 } ∧
      exec (.cdv 4) s = .next { s with c := 0, pc := s.pc + 2 }) ∧
    (0 ≤ s.b.toInt → exec (.bdv 5) s = .next { s with b := pow2div s.a s.b.toInt.toNat, pc := s.pc + 2 }) ∧
    (0 ≤ s.c.toInt → exec (.cdv 6) s = .next { s with c := pow2div s.a s.c.toInt.toNat, pc := s.pc + 2 })

/-- R110: `bxl`, whole: encoding, effect and frame for every operand and every B, and the corner cases. -/
def Obligations.BxlXorsTheLiteral : Prop :=
  (∀ (o : U3) (s : State),
    encodeWord (.bxl o) &&& 0b111000 = 0b001000 ∧ (Instr.bxl o).wellFormed = true ∧
    exec (.bxl o) s = .next { s with b := xor64 s.b (lit o), pc := s.pc + 2 } ∧
    (∀ j, 3 ≤ j → (xor64 s.b (lit o)).getLsbD j = s.b.getLsbD j) ∧
    ((xor64 s.b (lit o)).toInt < 0 ↔ s.b.toInt < 0) ∧
    xor64 s.b (lit 0) = s.b ∧ xor64 (xor64 s.b (lit o)) (lit o) = s.b) ∧
  (xor64 (-1) (lit 7)).toInt = -8 ∧ (xor64 (-8) (lit 7)).toInt = -1 ∧
  (xor64 (BitVec.ofInt 64 Config.minWord) (lit 1)).toInt = Config.minWord + 1 ∧
  xor64 5 (lit 6) = 3 ∧ xor64 29 (lit 7) = 26

/-- R112: `bxc`, whole: encoding, effect and frame for every operand value, which is ignored, the corner cases, and
the CellRange check that a wide-cell model still makes on the ignored cell. -/
def Obligations.BxcXorsCIntoB : Prop :=
  (∀ (o : U3) (s : State),
    encodeWord (.bxc o) &&& 0b111000 = 0b100000 ∧ (Instr.bxc o).wellFormed = true ∧
    exec (.bxc o) s = .next { s with b := xor64 s.b s.c, pc := s.pc + 2 } ∧
    (s.c = 0 → xor64 s.b s.c = s.b) ∧ (s.b = s.c → xor64 s.b s.c = 0) ∧
    xor64 (xor64 s.b s.c) s.c = s.b) ∧
  (∀ (cells : List Nat) (s : State) (v : Nat) (rest : List Nat), s.fsr = none →
    cells.drop s.pc = 4 :: v :: rest → 7 < v → wideStep cells s = .next (s.enterFault .cellRange)) ∧
  (xor64 (-1) 0).toInt = -1 ∧ xor64 (-1) (-1) = 0 ∧
  (xor64 (BitVec.ofInt 64 Config.minWord) (BitVec.ofInt 64 Config.maxWord)).toInt = -1 ∧
  xor64 2024 43690 = 44354

/-- 42_bitwise.md (bst), 92_eei_decisions.md D2 (the spec's decision for negative sources; log entry 7): with a legal
operand `bst` writes the residue 0 to 7 of the source to B, advances, and changes nothing else. -/
def Obligations.BstStoresTheResidue : Prop :=
  ∀ (o : U3) (s : State) (v : Word), combo o s = some v →
    ∃ q : Word, exec (.bst o) s = .next { s with b := q, pc := s.pc + 2 } ∧ q.toInt = v.toInt % 8

/-- 44_output.md (out), 92_eei_decisions.md D2 (log entry 7): with a legal operand `out` appends exactly the residue 0
to 7 of the source, advances, and changes nothing else. -/
def Obligations.OutAppendsTheResidue : Prop :=
  ∀ (o : U3) (s : State) (v : Word), combo o s = some v →
    ∃ m : U3, exec (.out o) s = .next { s with out := s.out ++ [m], pc := s.pc + 2 } ∧
      (m.toNat : Int) = v.toInt % 8

/-- R120: `jnz`, whole: encoding, the jump for every non-zero A to exactly the literal target, the normal advance
otherwise, for every operand; nothing but `pc` is written. A target past the end leaves a halted state. -/
def Obligations.JnzJumpsWhenANotZero : Prop :=
  ∀ (o : U3) (s : State),
    encodeWord (.jnz o) &&& 0b111000 = 0b011000 ∧ (Instr.jnz o).wellFormed = true ∧
    (s.a.toInt ≠ 0 → exec (.jnz o) s = .next { s with pc := o.toNat }) ∧
    (s.a.toInt = 0 → exec (.jnz o) s = .next { s with pc := s.pc + 2 }) ∧
    (s.len ≤ o.toNat + 1 → halted { s with pc := o.toNat } = true)

/-- R124: when A is 0, `jnz` only advances; at `pc = LEN - 2` this ends the run normally with `pc = LEN`. -/
def Obligations.JnzFallsThroughWhenAZero : Prop :=
  ∀ (o : U3) (s : State), s.a = 0 →
    exec (.jnz o) s = .next { s with pc := s.pc + 2 } ∧
    (s.fsr = none → nextInstr s = some (.jnz o) → s.pc + 2 = s.len →
      EndsNormally s { s with pc := s.len })

/-- 43_control.md (self-jump): a taken `jnz` to its own `pc` leaves the whole state unchanged, for ever: the run does
not end and no bounded run returns. -/
def Obligations.SelfJumpRunsForEver : Prop :=
  ∀ (s : State) (o : U3), s.fsr = none → s.a ≠ 0 → nextInstr s = some (.jnz o) → o.toNat = s.pc →
    step s = .next s ∧ (∀ n, stepsFor n s = some s) ∧ (∀ n, runFor n s = none) ∧ DoesNotEnd s

/-! ### Which state an instruction reads and writes -/

/-- R21: the table of reads and writes. An instruction leaves every register that it does not write as it was, writes
at most one, and its effect depends on no register but those it reads. -/
def Obligations.RegisterReadsAndWrites : Prop :=
  (∀ (i : Instr) (s t : State), exec i s = .next t →
    (∀ r, r ∉ writesOf i → t.reg r = s.reg r) ∧ (writesOf i).length ≤ 1) ∧
  (∀ (i : Instr) (s s' : State), s.fsr = none → s'.fsr = none → s.pc = s'.pc →
    (∀ r ∈ readsOf i, s.reg r = s'.reg r) →
    ∃ t t', exec i s = .next t ∧ exec i s' = .next t' ∧ t.pc = t'.pc ∧ t.fsr = t'.fsr ∧
      (t.fsr = none → (∀ r ∈ writesOf i, t.reg r = t'.reg r) ∧
        ∃ appended, t.out = s.out ++ appended ∧ t'.out = s'.out ++ appended)) ∧
  (∀ o, writesOf (.adv o) = [.a] ∧ writesOf (.bxl o) = [.b] ∧ writesOf (.bst o) = [.b] ∧ writesOf (.jnz o) = [] ∧
    writesOf (.bxc o) = [.b] ∧ writesOf (.out o) = [] ∧ writesOf (.bdv o) = [.b] ∧ writesOf (.cdv o) = [.c]) ∧
  (∀ o, readsOf (.bxl o) = [.b] ∧ readsOf (.jnz o) = [.a] ∧ readsOf (.bxc o) = [.b, .c] ∧
    readsOf (.out o) = readsOf (.bst o) ∧ readsOf (.adv o) = .a :: readsOf (.bst o) ∧
    readsOf (.bdv o) = .a :: readsOf (.bst o) ∧ readsOf (.cdv o) = .a :: readsOf (.bst o) ∧
    (o.toNat ≤ 3 → readsOf (.bst o) = [])) ∧
  readsOf (.bst 4) = [.a] ∧ readsOf (.bst 5) = [.b] ∧ readsOf (.bst 6) = [.c]

/-- 20_memory.md section 1 (no instruction reads program memory as data): the effect of an instruction does not
depend on the contents or the length of program memory. -/
def Obligations.NoInstructionReadsTheProgram : Prop :=
  ∀ (i : Instr) (s t : State) (p : List U3), exec i s = .next t →
    exec i { s with prog := p } = .next { t with prog := p }

/-- R29: the output is empty after construction; only `out` appends, one element of 0 to 7 per execution (none
when its operand raises InvalidCombo); no instruction reads, shortens or changes it; what it holds is a prefix of what it holds later in the run. -/
def Obligations.OutputIsAppendOnly : Prop :=
  (∀ (p : List U3) (x y z : Word), (State.construct p x y z).out = []) ∧
  (∀ (i : Instr) (s t : State), exec i s = .next t →
    ((∀ o, i ≠ .out o) → t.out = s.out) ∧
    (∀ o, i = .out o → o ≠ 7 → ∃ m : U3, m.toNat ≤ 7 ∧ t.out = s.out ++ [m]) ∧
    (i = .out 7 → t.out = s.out)) ∧
  (∀ (i : Instr) (s t : State) (l : List U3), exec i s = .next t →
    exec i { s with out := l } = .next { t with out := l ++ t.out.drop s.out.length }) ∧
  (∀ (n : Nat) (s t : State), stepsFor n s = some t → s.out <+: t.out) ∧
  (∀ s : State, s.out <+: (cycle s).2.out)

/-- R42: no instruction and no operation of the host after construction writes program memory. -/
def Obligations.ProgramMemoryIsNeverWritten : Prop :=
  (∀ (i : Instr) (s t : State), exec i s = .next t → t.prog = s.prog) ∧
  (∀ s : State, (cycle s).2.prog = s.prog) ∧
  (∀ (n : Nat) (s t : State), stepsFor n s = some t → t.prog = s.prog) ∧
  (∀ s t : State, EndsNormally s t ∨ EndsByFault s t → t.prog = s.prog)

/-- 10_state.md section 3 (changes per step): a `Stepped` step changes at most one of A, B, C and the output, leaves
`pc` as it was only in a taken self-jump, and lengthens the output by one on `out` and by none otherwise. -/
def Obligations.StepChangesAtMostOneThing : Prop :=
  ∀ s t : State, cycle s = (.stepped, t) →
    (t.a ≠ s.a → t.b = s.b ∧ t.c = s.c ∧ t.out = s.out) ∧
    (t.b ≠ s.b → t.a = s.a ∧ t.c = s.c ∧ t.out = s.out) ∧
    (t.c ≠ s.c → t.a = s.a ∧ t.b = s.b ∧ t.out = s.out) ∧
    (t.out ≠ s.out → t.a = s.a ∧ t.b = s.b ∧ t.c = s.c) ∧
    (t.pc = s.pc → t = s ∧ s.pc ≤ 7 ∧ ∃ o : U3, nextInstr s = some (.jnz o) ∧ o.toNat = s.pc ∧ s.a ≠ 0) ∧
    (∀ o, nextInstr s = some (.out o) → t.out.length = s.out.length + 1) ∧
    ((∀ o, nextInstr s ≠ some (.out o)) → t.out.length = s.out.length)

/-! ### The step -/

/-- 40_cycle.md section 1 (a total function; its faulted case is the spec's decision D12): the step never refuses,
answers a next state for every instance that no fault has stopped, and stops only where FSR is set. That a halted
instance too answers a next state, where the spec's outcome is Halted, is the model's choice (log entry 3), and so is
that the step which raises a fault answers one (log entry 4; the spec's decisions: log entry 7). -/
def Obligations.StepIsTotal : Prop :=
  ∀ s : State,
    (s.fsr = none → ∃ t, step s = .next t) ∧
    (∀ r, step s ≠ .refused r) ∧
    (∀ r, step s = .fault r → ∃ f, s.fsr = some f ∧ r = .aborted f.cause f.fpc)

/-- 40_cycle.md section 1: the halt test. When `pc + 1 >= LEN` nothing is fetched, nothing is written and the outcome
is Halted; an instruction is executed only when `pc <= LEN - 2`. The machine is halted from construction on for LEN 0
and 1. That the host's `step` answers the same state there as a next state is the model's choice (log entry 3). -/
def Obligations.HaltTestComesFirst : Prop :=
  (∀ s : State, s.fsr = none →
    (s.len ≤ s.pc + 1 → step s = .next s ∧ cycle s = (.halted, s) ∧ nextInstr s = none) ∧
    (s.pc + 1 < s.len → (nextInstr s).isSome = true ∧ (cycle s).1 ≠ .halted) ∧
    ((nextInstr s).isSome = true ↔ s.pc + 2 ≤ s.len)) ∧
  (∀ (p : List U3) (x y z : Word), p.length ≤ 1 → cycle (State.construct p x y z) = (.halted, State.construct p x y z))

/-- 40_cycle.md section 1 (a halted machine never resumes): however many steps are asked of a halted state, it stays
as it is, and `run` returns its output at once. That the host's `step` answers the same state is the model's choice
(log entry 3). -/
def Obligations.HaltedStateStaysHalted : Prop :=
  ∀ (s : State) (n : Nat), s.fsr = none → halted s = true →
    Host.Core.run Sys2Proof.core n s = .next s ∧ runFor (n + 1) s = some (.done s.out) ∧ EndsNormally s s

/-- 40_cycle.md section 1, 92_eei_decisions.md D12 (the spec's own decision; log entry 7): a faulted instance answers
every later step and run with the same fault and changes nothing. -/
def Obligations.FaultIsSticky : Prop :=
  ∀ (s : State) (f : FaultRecord) (n : Nat), s.fsr = some f →
    step s = .fault (.aborted f.cause f.fpc) ∧ cycle s = (.faulted f.cause, s) ∧
    runFor (n + 1) s = some (.aborted f.cause f.fpc) ∧
    Host.Core.run Sys2Proof.core (n + 1) s = .fault (.aborted f.cause f.fpc) ∧
    (∀ t, EndsNormally s t → False)

/-- R24: `pc` changes in exactly two ways; a step that is halted, faulted or raises a fault leaves it; with no jump
taken its parity stays; it is 0 after construction. -/
def Obligations.PcChangesInTwoWays : Prop :=
  (∀ (p : List U3) (x y z : Word), (State.construct p x y z).pc = 0) ∧
  (∀ s t : State, cycle s = (.stepped, t) →
    (¬ takesJump s → t.pc = s.pc + 2) ∧
    (∀ o, takesJump s → nextInstr s = some (.jnz o) → t.pc = (lit o).toNat ∧ t.pc ≤ 7)) ∧
  (∀ s : State, (cycle s).1 ≠ .stepped → (cycle s).2.pc = s.pc) ∧
  (∀ (n : Nat) (s t : State), stepsFor n s = some t →
    (∀ k u, k < n → stepsFor k s = some u → ¬ takesJump u) → t.pc % 2 = s.pc % 2)

/-- R85: a step that executed an instruction reports `Stepped` even when the `pc` it leaves satisfies the halt test,
and the next step reports the halt and changes nothing; a run of `n` instructions that then halts is `n` `Stepped`
steps followed by one `Halted` step. -/
def Obligations.ReportDescribesTheStateFound : Prop :=
  (∀ (s t : State) (i : Instr), s.fsr = none → nextInstr s = some i → exec i s = .next t → t.fsr = none →
    cycle s = (.stepped, t) ∧ (halted t = true → cycle t = (.halted, t))) ∧
  (∀ (n : Nat) (s t : State), stepsFor n s = some t → t.fsr = none → halted t = true →
    runFor n s = none ∧ runFor (n + 1) s = some (.done t.out))

/-- 60_exceptions.md sections 1 and 4 (D9 and D22 are the spec's own decisions; log entry 7): a fault newly raised by
a step changes FSR and nothing else, records the `pc` that the machine keeps, comes from an instruction that could be
read, and has the cause the instruction's condition gives; CellRange is never raised in the 3-bit hardware. -/
def Obligations.FaultEntryIsPrecise : Prop :=
  ∀ (s t : State) (f : FaultRecord), step s = .next t → s.fsr = none → t.fsr = some f →
    t = { s with fsr := some f } ∧ f.fpc = s.pc ∧ s.pc + 1 < s.len ∧ cycle s = (.faulted f.cause, t) ∧
    ∃ i, nextInstr s = some i ∧
      ((f.cause = .invalidCombo ∧ i.kind = .combo ∧ i.operand = 7) ∨
       (f.cause = .negativeExponent ∧ (∃ o, i = .adv o ∨ i = .bdv o ∨ i = .cdv o) ∧
        ∃ k, combo i.operand s = some k ∧ k.toInt < 0))

/-! ### Invariants -/

/-- The invariant holds after construction, whatever its inputs, and at reset (10_state.md section 2). -/
def Obligations.ConstructedStateIsReasonable : Prop :=
  (∀ (p : List U3) (x y z : Word), Reasonable (State.construct p x y z)) ∧ Reasonable State.reset

/-- 10_state.md section 1 (`pc` is bounded; `FSR.fpc`): from every state with `pc <= max(LEN, 7)` and a consistent
FSR, every step leads to one. -/
def Obligations.StepKeepsReasonable : Prop :=
  ∀ s t : State, step s = .next t → Reasonable s → Reasonable t

/-- 10_state.md section 3: non-negative registers stay non-negative in every step and every run, and no instruction
executed from them raises NegativeExponent. -/
def Obligations.NonNegativityIsKept : Prop :=
  (∀ s t : State, step s = .next t → NonNegative s →
    NonNegative t ∧ ∀ f, t.fsr = some f → f.cause ≠ .negativeExponent) ∧
  (∀ (n : Nat) (s t : State), stepsFor n s = some t → NonNegative s → NonNegative t)

/-- 10_state.md section 3: along every run the magnitude of A never grows, and A is 0 from the first time it is. -/
def Obligations.MagnitudeOfANeverGrows : Prop :=
  ∀ (n : Nat) (s t : State), stepsFor n s = some t →
    t.a.toInt.natAbs ≤ s.a.toInt.natAbs ∧ (s.a = 0 → t.a = 0)

/-! ### Runs -/

/-- 40_cycle.md section 3 (jump-free runs): from construction, a run of `n` instructions in which no jump is taken is
at cell `2 * n`, has executed at most `floor(LEN / 2)` instructions, and is halted exactly when it has executed that
many. -/
def Obligations.JumpFreeRunLength : Prop :=
  ∀ (p : List U3) (x y z : Word) (n : Nat) (t : State), stepsFor n (State.construct p x y z) = some t →
    (∀ k u, k < n → stepsFor k (State.construct p x y z) = some u → ¬ takesJump u) →
    t.pc = 2 * n ∧ n ≤ p.length / 2 ∧ (halted t = true ↔ n = p.length / 2)

/-- 40_cycle.md section 3 and 70_reset_and_hazards.md section 5: every run ends normally, or ends by fault, or does
not end; exactly one of the three; and the final state is unique. -/
def Obligations.RunEndsInExactlyOneWay : Prop :=
  ∀ s : State,
    ((∃ t, EndsNormally s t) ∨ (∃ t, EndsByFault s t) ∨ DoesNotEnd s) ∧
    ¬ ((∃ t, EndsNormally s t) ∧ ∃ t, EndsByFault s t) ∧
    ¬ ((∃ t, EndsNormally s t) ∧ DoesNotEnd s) ∧
    ¬ ((∃ t, EndsByFault s t) ∧ DoesNotEnd s) ∧
    (∀ t u, EndsNormally s t → EndsNormally s u → t = u) ∧
    (∀ t u, EndsByFault s t → EndsByFault s u → t = u)

/-- 40_cycle.md section 2: `run` returns Done with the output of the final state exactly when the run ends normally,
Aborted with the cause and `fpc` that FSR holds exactly when it ends by fault, and never returns exactly when the run
does not end. -/
def Obligations.RunReturnsHowTheRunEnds : Prop :=
  ∀ s : State,
    (∀ o, (∃ n, runFor n s = some (.done o)) ↔ ∃ t, EndsNormally s t ∧ t.out = o) ∧
    (∀ cause fpc, (∃ n, runFor n s = some (.aborted cause fpc)) ↔
      ∃ t, EndsByFault s t ∧ t.fsr = some { cause := cause, fpc := fpc }) ∧
    ((∀ n, runFor n s = none) ↔ DoesNotEnd s)

/-- 30_encoding.md section 5 (the sufficient static condition) and 10_state.md section 3: a program in neither of
whose readings an illegal word stands never raises InvalidCombo, from any state of an instance that has not faulted;
with non-negative registers its run does not end by fault at all. -/
def Obligations.WellFormedProgramsDoNotFault : Prop :=
  ∀ s : State, staticallyWellFormed s.prog = true → s.fsr = none →
    (∀ (n : Nat) (t u : State), stepsFor n s = some t → cycle t ≠ (.faulted .invalidCombo, u)) ∧
    (NonNegative s → ∀ t, ¬ EndsByFault s t)

/-- 30_encoding.md section 5 and 10_state.md section 3, as an invariant: from every state of an instance that has not
faulted, with a statically well-formed program and non-negative registers, every step leads to such a state, so no
fault is ever raised. That a halted state and a state entering a fault are next states is the model's choice (log
entries 3 and 4). -/
def Obligations.StepKeepsFaultFree : Prop :=
  ∀ s t : State, step s = .next t → FaultFree s → FaultFree t

/-! ### Construction, memory and the host -/

/-- 10_state.md section 2 and 70_reset_and_hazards.md section 1 (the FSR clause is the spec's decision D9): the state
after construction. -/
def Obligations.ConstructionGivesTheInitialState : Prop :=
  ∀ (p : List U3) (x y z : Word),
    (State.construct p x y z).pc = 0 ∧ (State.construct p x y z).a = x ∧ (State.construct p x y z).b = y ∧
    (State.construct p x y z).c = z ∧ (State.construct p x y z).out = [] ∧ (State.construct p x y z).fsr = none ∧
    (State.construct p x y z).prog = p

/-- 70_reset_and_hazards.md section 1 (domain), 92_eei_decisions.md D5 and D23 (log entry 11): construction from
integers succeeds exactly on cells 0 to 7 and register values MIN to MAX, and gives the machine those values. -/
def Obligations.ConstructionDomain : Prop :=
  ∀ (cells : List Int) (x y z : Int),
    ((construct? cells x y z).isSome = true ↔
      (∀ v ∈ cells, 0 ≤ v ∧ v ≤ 7) ∧ (Config.minWord ≤ x ∧ x ≤ Config.maxWord) ∧
      (Config.minWord ≤ y ∧ y ≤ Config.maxWord) ∧ (Config.minWord ≤ z ∧ z ≤ Config.maxWord)) ∧
    (∀ s, construct? cells x y z = some s →
      s.prog.map (fun v => (v.toNat : Int)) = cells ∧ s.a.toInt = x ∧ s.b.toInt = y ∧ s.c.toInt = z ∧
      s.pc = 0 ∧ s.out = [] ∧ s.fsr = none)

/-- R41: `MemRead(addr, n)` is defined exactly when `addr + n <= LEN`, and answers the cells at `addr` to
`addr + n - 1`, lowest index first; its one use is the fetch of the pair at `pc`, which the halt test keeps inside
the program; a read gives the same cells all through a run. -/
def Obligations.MemReadAnswersTheCells : Prop :=
  (∀ (p : List U3) (addr n : Nat),
    (addr + n ≤ p.length → ∃ l, memRead p addr n = some l ∧ l.length = n ∧
      ∀ j, j < n → l[j]? = p[addr + j]?) ∧
    (p.length < addr + n → memRead p addr n = none)) ∧
  (∀ s : State, halted s = false → ∃ p q, memRead s.prog s.pc 2 = some [p, q] ∧
    s.prog[s.pc]? = some p ∧ s.prog[s.pc + 1]? = some q ∧ nextInstr s = some (decodePair p q)) ∧
  (∀ (k : Nat) (s t : State) (addr n : Nat), stepsFor k s = some t → memRead t.prog addr n = memRead s.prog addr n)

/-- 10_state.md section 1 and 70_reset_and_hazards.md section 2: the run statuses the host observes, FAULTED taking
precedence, and the result, which exists at a normal halt only. -/
def Obligations.StatusAndResultAreDerived : Prop :=
  ∀ s : State,
    (status s = .running ↔ s.fsr = none ∧ s.pc + 1 < s.len) ∧
    (status s = .halted ↔ s.fsr = none ∧ s.len ≤ s.pc + 1) ∧
    (∀ cause fpc, status s = .faulted cause fpc ↔ s.fsr = some { cause := cause, fpc := fpc }) ∧
    (∀ o, result? s = some o ↔ status s = .halted ∧ o = s.out)

/-! ### Wide cells -/

/-- 30_encoding.md section 4, 92_eei_decisions.md D5 (log entry 12): on cells 0 to 7 the step of a wide-cell model is
the step of the hardware. -/
def Obligations.WideStepRefinesToStep : Prop :=
  ∀ (cells : List Nat) (s : State), (∀ v ∈ cells, v ≤ 7) → s.prog = cells.map (BitVec.ofNat 3) →
    wideStep cells s = step s

/-- 60_exceptions.md section 1 (CellRange), 92_eei_decisions.md D5 (log entry 12): a fetched cell outside 0 to 7 in
either place makes the wide-cell step enter the CellRange fault, whatever the opcode; a cell not fetched does not. -/
def Obligations.WideStepRaisesCellRange : Prop :=
  (∀ (cells : List Nat) (s : State) (p q : Nat) (rest : List Nat), s.fsr = none →
    cells.drop s.pc = p :: q :: rest → (7 < p ∨ 7 < q) →
    wideStep cells s = .next { s with fsr := some { cause := .cellRange, fpc := s.pc } }) ∧
  (∀ (cells cells' : List Nat) (s : State), (cells.drop s.pc).take 2 = (cells'.drop s.pc).take 2 →
    wideStep cells s = wideStep cells' s)
end

