-- ==== Sys2Proof/Laws/Arith.lean ====
section
/-! SUPPORT. The arithmetic primitives: the exact integer meaning of each bit-level definition. -/

namespace Sys2Proof.Machine

/-- The floor form of R8 is the division that rounds toward zero. -/
theorem tdiv_eq_int_tdiv (a d : Int) : tdiv a d = a.tdiv d := by
  unfold tdiv
  split
  · rename_i h; exact (Int.tdiv_eq_ediv_of_nonneg h).symm
  · rename_i h
    rw [← Int.tdiv_eq_ediv_of_nonneg (by omega), Int.neg_tdiv, neg_neg]

theorem two_pow_pos (k : Nat) : (0 : Int) < 2 ^ k := by positivity

/-- A quotient by a positive divisor is no greater in magnitude than the dividend. -/
theorem natAbs_tdiv_le (a d : Int) : (a.tdiv d).natAbs ≤ a.natAbs := by
  rw [Int.natAbs_tdiv]; exact Nat.div_le_self _ _

theorem word_toInt_bounds (a : Word) : -(2 ^ 63) ≤ a.toInt ∧ a.toInt ≤ 2 ^ 63 - 1 := by
  have h1 := a.le_toInt (w := 64); have h2 := a.toInt_lt (w := 64)
  norm_num at *; omega

/-- An integer in the range of a register is the value of the register made from it. -/
theorem toInt_ofInt_of_bounds {v : Int} (h1 : -(2 ^ 63) ≤ v) (h2 : v ≤ 2 ^ 63 - 1) :
    (BitVec.ofInt 64 v).toInt = v := by
  rw [BitVec.toInt_ofInt]
  exact Int.bmod_eq_of_le (by omega) (by omega)

/-- A quotient of a register value by a positive divisor fits the register. -/
theorem tdiv_in_range (a : Word) {d : Int} (hd : 0 < d) :
    -(2 ^ 63) ≤ a.toInt.tdiv d ∧ a.toInt.tdiv d ≤ 2 ^ 63 - 1 := by
  have hb := word_toInt_bounds a
  have hn := natAbs_tdiv_le a.toInt d
  rcases Int.le_total 0 a.toInt with h | h
  · have := Int.tdiv_nonneg h (Int.le_of_lt hd)
    constructor <;> omega
  · have : 0 ≤ (-a.toInt).tdiv d := Int.tdiv_nonneg (by omega) (Int.le_of_lt hd)
    rw [Int.neg_tdiv] at this
    constructor <;> omega

/-- `pow2div` is the exact truncated quotient for EVERY exponent, also where its definition forms no power. -/
theorem pow2div_toInt (a : Word) (k : Nat) : (pow2div a k).toInt = a.toInt.tdiv (2 ^ k) := by
  have hb := word_toInt_bounds a
  unfold pow2div
  split
  · rename_i hk
    have h64 : (2 : Int) ^ 64 ≤ 2 ^ k := by exact_mod_cast Nat.pow_le_pow_right (by norm_num : 2 > 0) hk
    have : a.toInt.tdiv (2 ^ k) = 0 := by
      rw [← Int.natAbs_eq_zero, Int.natAbs_tdiv]
      exact Nat.div_eq_of_lt (by omega)
    rw [this]; rfl
  · rw [tdiv_eq_int_tdiv]
    exact toInt_ofInt_of_bounds (tdiv_in_range a (two_pow_pos k)).1 (tdiv_in_range a (two_pow_pos k)).2

/-- `mod8` is the residue modulo 8 that is never negative (R10). -/
theorem mod8_toNat (v : Word) : ((mod8 v).toNat : Int) = v.toInt % 8 := by
  rw [mod8, BitVec.extractLsb'_toNat, BitVec.toInt_eq_toNat_cond]
  have := v.isLt
  split
  · simp
  · simp; omega

theorem xor64_nonneg {a b : Word} (ha : 0 ≤ a.toInt) (hb : 0 ≤ b.toInt) : 0 ≤ (xor64 a b).toInt := by
  have h1 : a.msb = false := by simpa [BitVec.msb_eq_toInt] using ha
  have h2 : b.msb = false := by simpa [BitVec.msb_eq_toInt] using hb
  have : (xor64 a b).msb = false := by simp [xor64, h1, h2]
  simpa [BitVec.msb_eq_toInt] using this

theorem pow2div_nonneg {a : Word} (h : 0 ≤ a.toInt) (k : Nat) : 0 ≤ (pow2div a k).toInt := by
  rw [pow2div_toInt]; exact Int.tdiv_nonneg h (Int.le_of_lt (two_pow_pos k))

end Sys2Proof.Machine
end

