-- ==== Sys2Proof/Laws/State.lean ====
section
/-! SUPPORT. One lemma per field per update of State: what each named operation leaves in each field. -/

namespace Sys2Proof.Machine

section
variable (s : State) (t : Nat) (v : U3) (cause : FaultCause)

@[simp] theorem advance_pc : s.advance.pc = s.pc + 2 := rfl
@[simp] theorem advance_a : s.advance.a = s.a := rfl
@[simp] theorem advance_b : s.advance.b = s.b := rfl
@[simp] theorem advance_c : s.advance.c = s.c := rfl
@[simp] theorem advance_out : s.advance.out = s.out := rfl
@[simp] theorem advance_fsr : s.advance.fsr = s.fsr := rfl
@[simp] theorem advance_prog : s.advance.prog = s.prog := rfl

@[simp] theorem jumpTo_pc : (s.jumpTo t).pc = t := rfl
@[simp] theorem jumpTo_a : (s.jumpTo t).a = s.a := rfl
@[simp] theorem jumpTo_b : (s.jumpTo t).b = s.b := rfl
@[simp] theorem jumpTo_c : (s.jumpTo t).c = s.c := rfl
@[simp] theorem jumpTo_out : (s.jumpTo t).out = s.out := rfl
@[simp] theorem jumpTo_fsr : (s.jumpTo t).fsr = s.fsr := rfl
@[simp] theorem jumpTo_prog : (s.jumpTo t).prog = s.prog := rfl

@[simp] theorem outAppend_pc : (s.outAppend v).pc = s.pc := rfl
@[simp] theorem outAppend_a : (s.outAppend v).a = s.a := rfl
@[simp] theorem outAppend_b : (s.outAppend v).b = s.b := rfl
@[simp] theorem outAppend_c : (s.outAppend v).c = s.c := rfl
@[simp] theorem outAppend_out : (s.outAppend v).out = s.out ++ [v] := rfl
@[simp] theorem outAppend_fsr : (s.outAppend v).fsr = s.fsr := rfl
@[simp] theorem outAppend_prog : (s.outAppend v).prog = s.prog := rfl

@[simp] theorem enterFault_pc : (s.enterFault cause).pc = s.pc := rfl
@[simp] theorem enterFault_a : (s.enterFault cause).a = s.a := rfl
@[simp] theorem enterFault_b : (s.enterFault cause).b = s.b := rfl
@[simp] theorem enterFault_c : (s.enterFault cause).c = s.c := rfl
@[simp] theorem enterFault_out : (s.enterFault cause).out = s.out := rfl
@[simp] theorem enterFault_fsr : (s.enterFault cause).fsr = some { cause := cause, fpc := s.pc } := rfl
@[simp] theorem enterFault_prog : (s.enterFault cause).prog = s.prog := rfl
end

section
variable (s : State) (r : Reg) (w : Word)

@[simp] theorem setReg_pc : (s.setReg r w).pc = s.pc := by cases r <;> rfl
@[simp] theorem setReg_out : (s.setReg r w).out = s.out := by cases r <;> rfl
@[simp] theorem setReg_fsr : (s.setReg r w).fsr = s.fsr := by cases r <;> rfl
@[simp] theorem setReg_prog : (s.setReg r w).prog = s.prog := by cases r <;> rfl
@[simp] theorem setReg_a_a : (s.setReg .a w).a = w := rfl
@[simp] theorem setReg_a_b : (s.setReg .a w).b = s.b := rfl
@[simp] theorem setReg_a_c : (s.setReg .a w).c = s.c := rfl
@[simp] theorem setReg_b_a : (s.setReg .b w).a = s.a := rfl
@[simp] theorem setReg_b_b : (s.setReg .b w).b = w := rfl
@[simp] theorem setReg_b_c : (s.setReg .b w).c = s.c := rfl
@[simp] theorem setReg_c_a : (s.setReg .c w).a = s.a := rfl
@[simp] theorem setReg_c_b : (s.setReg .c w).b = s.b := rfl
@[simp] theorem setReg_c_c : (s.setReg .c w).c = w := rfl
end

/-- LEN is the length of program memory (10_state.md R31). -/
@[simp] theorem len_eq (s : State) : s.len = s.prog.length := rfl

section
variable (s : State)

@[simp] theorem reg_a : s.reg .a = s.a := rfl
@[simp] theorem reg_b : s.reg .b = s.b := rfl
@[simp] theorem reg_c : s.reg .c = s.c := rfl

/-- A register read after a write to the same register gives the value written; any other register is unchanged. -/
theorem reg_setReg (r q : Reg) (w : Word) : (s.setReg r w).reg q = if q = r then w else s.reg q := by
  cases r <;> cases q <;> rfl
end

section
variable (p : List U3) (x y z : Word)

@[simp] theorem construct_pc : (State.construct p x y z).pc = 0 := rfl
@[simp] theorem construct_a : (State.construct p x y z).a = x := rfl
@[simp] theorem construct_b : (State.construct p x y z).b = y := rfl
@[simp] theorem construct_c : (State.construct p x y z).c = z := rfl
@[simp] theorem construct_out : (State.construct p x y z).out = [] := rfl
@[simp] theorem construct_fsr : (State.construct p x y z).fsr = none := rfl
@[simp] theorem construct_prog : (State.construct p x y z).prog = p := rfl
end

end Sys2Proof.Machine
end

