-- ==== Sys2Proof/Laws/Operands.lean ====
section
/-! SUPPORT. Operand resolution: its eight cases, and what an instruction of combo kind can do. -/

namespace Sys2Proof.Machine

@[simp] theorem lit_toNat (o : U3) : (lit o).toNat = o.toNat := by
  rw [lit, BitVec.toNat_setWidth]; have := o.isLt; omega

theorem lit_toInt (o : U3) : (lit o).toInt = o.toNat := by
  have := o.isLt
  rw [BitVec.toInt_eq_toNat_of_lt (by rw [lit_toNat]; omega), lit_toNat]

/-- A property of all eight operand values is one of each. -/
theorem forall_operand {P : U3 → Prop} (h : ∀ n : Fin 8, P (BitVec.ofFin n)) (o : U3) : P o := h o.toFin

/-- Only operand 7 is invalid as a combo operand. -/
theorem combo_eq_none_iff (o : U3) (s : State) : combo o s = none ↔ o = 7 := by
  revert o
  apply forall_operand
  intro n
  fin_cases n <;> simp [combo]

/-- Combo resolution looks at the registers only. -/
theorem combo_congr {s t : State} (ha : s.a = t.a) (hb : s.b = t.b) (hc : s.c = t.c) (o : U3) :
    combo o s = combo o t := by
  unfold combo; rw [ha, hb, hc]

/-- A resolved operand is a constant 0 to 3 or the value of one register. -/
theorem combo_cases {o : U3} {s : State} {v : Word} (h : combo o s = some v) :
    v.toNat < 4 ∨ v = s.a ∨ v = s.b ∨ v = s.c := by
  revert h; revert o
  apply forall_operand
  intro n
  fin_cases n <;> simp [combo] <;> rintro rfl <;> simp

/-- With non-negative registers every resolved operand is non-negative. -/
theorem combo_nonneg {o : U3} {s : State} {v : Word} (h : combo o s = some v)
    (ha : 0 ≤ s.a.toInt) (hb : 0 ≤ s.b.toInt) (hc : 0 ≤ s.c.toInt) : 0 ≤ v.toInt := by
  rcases combo_cases h with h | rfl | rfl | rfl
  · rw [BitVec.toInt_eq_toNat_of_lt (by omega)]; omega
  all_goals assumption

theorem withCombo_some {o : U3} {s : State} {v : Word} (h : combo o s = some v)
    (k : Word → Host.Outcome State Fault Refusal) : withCombo o s k = k v := by
  simp [withCombo, h]

theorem withCombo_none {o : U3} {s : State} (h : combo o s = none)
    (k : Word → Host.Outcome State Fault Refusal) : withCombo o s k = .next (s.enterFault .invalidCombo) := by
  simp [withCombo, h, raiseFault]

end Sys2Proof.Machine
end

