-- ==== Sys2Proof/Laws/Decode.lean ====
section
/-! SUPPORT. The two cells of an instruction and its decoding. -/

namespace Sys2Proof.Machine

/-- The opcode cell of what a pair decodes to is the pair's opcode cell. -/
@[simp] theorem opcode_decodePair (p q : U3) : (decodePair p q).opcode = p := by
  revert p
  apply forall_operand
  intro n
  fin_cases n <;> rfl

/-- The operand cell of what a pair decodes to is the pair's operand cell: no bit of it is dropped. -/
@[simp] theorem operand_decodePair (p q : U3) : (decodePair p q).operand = q := by
  revert p
  apply forall_operand
  intro n
  fin_cases n <;> rfl

/-- The word of an instruction is 8 times its opcode plus its operand (30_encoding.md R61). -/
theorem encodeWord_toNat (i : Instr) : (encodeWord i).toNat = 8 * i.opcode.toNat + i.operand.toNat := by
  have := i.operand.isLt
  rw [encodeWord, BitVec.toNat_append, ← Nat.shiftLeft_add_eq_or_of_lt (by omega), Nat.shiftLeft_eq]
  omega

/-- The decoder on naturals reads a pair of 3-bit cells as `decodePair` does. -/
theorem decode_cells (p q : U3) (rest : List Nat) :
    decode (p.toNat :: q.toNat :: rest) = .instr (decodePair p q) rest := by
  have := p.isLt
  have := q.isLt
  simp only [decode]
  rw [if_neg (show ¬ 7 < p.toNat by omega), if_neg (show ¬ 7 < q.toNat by omega)]
  simp

theorem length_encode (i : Instr) : (encode i).length = 2 := rfl

theorem encodeProgram_cons (i : Instr) (is : List Instr) :
    encodeProgram (i :: is) = i.opcode :: i.operand :: encodeProgram is := rfl

end Sys2Proof.Machine
end

