-- ==== Sys2Proof/Laws/Exec.lean ====
section
/-! SUPPORT. What an instruction can do, said once: the inversion lemmas that later proofs cite. -/

namespace Sys2Proof.Machine

/-- A division with a resolved non-negative exponent completes. -/
theorem divideInto_of_nonneg (dest : Reg) {o : U3} {s : State} {k : Word} (h : combo o s = some k)
    (hk : 0 ≤ k.toInt) : divideInto dest o s = .next ((s.setReg dest (pow2div s.a k.toNat)).advance) := by
  rw [divideInto, withCombo_some h, if_neg (by omega)]

/-- A division with a resolved negative exponent enters the fault. -/
theorem divideInto_of_neg (dest : Reg) {o : U3} {s : State} {k : Word} (h : combo o s = some k)
    (hk : k.toInt < 0) : divideInto dest o s = .next (s.enterFault .negativeExponent) := by
  rw [divideInto, withCombo_some h, if_pos hk]; rfl

/-- Everything a division can do: one of the two faults, or the quotient written and `pc` advanced. -/
theorem divideInto_cases (dest : Reg) (o : U3) (s : State) :
    (o = 7 ∧ divideInto dest o s = .next (s.enterFault .invalidCombo)) ∨
    (∃ k, combo o s = some k ∧ k.toInt < 0 ∧ divideInto dest o s = .next (s.enterFault .negativeExponent)) ∨
    (∃ k, combo o s = some k ∧ 0 ≤ k.toInt ∧
      divideInto dest o s = .next ((s.setReg dest (pow2div s.a k.toNat)).advance)) := by
  cases h : combo o s with
  | none => exact .inl ⟨(combo_eq_none_iff o s).1 h, withCombo_none h _⟩
  | some k =>
    rcases Int.lt_or_le k.toInt 0 with hk | hk
    · exact .inr (.inl ⟨k, rfl, hk, divideInto_of_neg dest h hk⟩)
    · exact .inr (.inr ⟨k, rfl, hk, divideInto_of_nonneg dest h hk⟩)

/-- Everything `bst` can do. -/
theorem execBst_cases (o : U3) (s : State) :
    (o = 7 ∧ execBst o s = .next (s.enterFault .invalidCombo)) ∨
    (∃ v, combo o s = some v ∧ execBst o s = .next ((s.setReg .b ((mod8 v).setWidth 64)).advance)) := by
  cases h : combo o s with
  | none => exact .inl ⟨(combo_eq_none_iff o s).1 h, withCombo_none h _⟩
  | some v => exact .inr ⟨v, rfl, withCombo_some h _⟩

/-- Everything `out` can do. -/
theorem execOut_cases (o : U3) (s : State) :
    (o = 7 ∧ execOut o s = .next (s.enterFault .invalidCombo)) ∨
    (∃ v, combo o s = some v ∧ execOut o s = .next ((s.outAppend (mod8 v)).advance)) := by
  cases h : combo o s with
  | none => exact .inl ⟨(combo_eq_none_iff o s).1 h, withCombo_none h _⟩
  | some v => exact .inr ⟨v, rfl, withCombo_some h _⟩

/-- Everything `jnz` can do. -/
theorem execJnz_cases (o : U3) (s : State) :
    (s.a ≠ 0 ∧ execJnz o s = .next (s.jumpTo o.toNat)) ∨ (s.a = 0 ∧ execJnz o s = .next s.advance) := by
  by_cases h : s.a = 0
  · exact .inr ⟨h, by simp [execJnz, jumpTaken, h]⟩
  · have ht : jumpTaken s = true := by simpa [jumpTaken] using h
    exact .inl ⟨h, by rw [execJnz, if_pos ht, lit_toNat]⟩

/-- Everything any instruction can do: take one of two faults, write its one register and advance, append one value
and advance, or (`jnz`) jump or advance. -/
theorem exec_cases (i : Instr) (s : State) :
    (i.wellFormed = false ∧ exec i s = .next (s.enterFault .invalidCombo)) ∨
    (i.wellFormed = true ∧ (∃ k, combo i.operand s = some k ∧ k.toInt < 0) ∧
      exec i s = .next (s.enterFault .negativeExponent)) ∨
    (i.wellFormed = true ∧ ∃ r v, writesOf i = [r] ∧ exec i s = .next ((s.setReg r v).advance)) ∨
    (∃ o v, o ≠ 7 ∧ i = .out o ∧ exec i s = .next ((s.outAppend v).advance)) ∨
    (∃ o, i = .jnz o ∧ s.a ≠ 0 ∧ exec i s = .next (s.jumpTo o.toNat)) ∨
    (∃ o, i = .jnz o ∧ s.a = 0 ∧ exec i s = .next s.advance) := by
  have legal {o : U3} {k : Word} (h : combo o s = some k) : comboLegal o = true := bne_iff_ne.2 fun h7 => by
    simp [(combo_eq_none_iff o s).2 h7] at h
  have division (dest : Reg) (i : Instr) (o : U3) (hi : i.wellFormed = comboLegal o) (ho : i.operand = o)
      (hw : writesOf i = [dest]) (he : exec i s = divideInto dest o s) :
      (i.wellFormed = false ∧ exec i s = .next (s.enterFault .invalidCombo)) ∨
      (i.wellFormed = true ∧ (∃ k, combo i.operand s = some k ∧ k.toInt < 0) ∧
        exec i s = .next (s.enterFault .negativeExponent)) ∨
      (i.wellFormed = true ∧ ∃ r v, writesOf i = [r] ∧ exec i s = .next ((s.setReg r v).advance)) := by
    rcases divideInto_cases dest o s with ⟨h7, h⟩ | ⟨k, hk, hn, h⟩ | ⟨k, hk, hn, h⟩
    · exact .inl ⟨by rw [hi, h7]; rfl, he.trans h⟩
    · exact .inr (.inl ⟨hi.trans (legal hk), ⟨k, by rw [ho, hk], hn⟩, he.trans h⟩)
    · exact .inr (.inr ⟨hi.trans (legal hk), dest, _, hw, he.trans h⟩)
  cases i with
  | adv o =>
    rcases division .a (.adv o) o rfl rfl rfl rfl with h | h | h
    · exact .inl h
    · exact .inr (.inl h)
    · exact .inr (.inr (.inl h))
  | bdv o =>
    rcases division .b (.bdv o) o rfl rfl rfl rfl with h | h | h
    · exact .inl h
    · exact .inr (.inl h)
    · exact .inr (.inr (.inl h))
  | cdv o =>
    rcases division .c (.cdv o) o rfl rfl rfl rfl with h | h | h
    · exact .inl h
    · exact .inr (.inl h)
    · exact .inr (.inr (.inl h))
  | bxl o => exact .inr (.inr (.inl ⟨rfl, .b, _, rfl, rfl⟩))
  | bxc o => exact .inr (.inr (.inl ⟨rfl, .b, _, rfl, rfl⟩))
  | bst o =>
    rcases execBst_cases o s with ⟨h7, h⟩ | ⟨v, hv, h⟩
    · exact .inl ⟨by rw [h7]; rfl, h⟩
    · exact .inr (.inr (.inl ⟨legal hv, .b, _, rfl, h⟩))
  | out o =>
    rcases execOut_cases o s with ⟨h7, h⟩ | ⟨v, hv, h⟩
    · exact .inl ⟨by rw [h7]; rfl, h⟩
    · exact .inr (.inr (.inr (.inl ⟨o, _, bne_iff_ne.1 (legal hv), rfl, h⟩)))
  | jnz o =>
    rcases execJnz_cases o s with ⟨ha, h⟩ | ⟨ha, h⟩
    · exact .inr (.inr (.inr (.inr (.inl ⟨o, rfl, ha, h⟩))))
    · exact .inr (.inr (.inr (.inr (.inr ⟨o, rfl, ha, h⟩))))

/-- Every instruction takes a next state in every state. -/
theorem exec_next (i : Instr) (s : State) : ∃ t, exec i s = .next t := by
  rcases exec_cases i s with ⟨_, h⟩ | ⟨_, _, h⟩ | ⟨_, _, _, _, h⟩ | ⟨_, _, _, _, h⟩ | ⟨_, _, _, h⟩ | ⟨_, _, _, h⟩ <;>
    exact ⟨_, h⟩

/-- No instruction changes program memory (20_memory.md R42). -/
theorem exec_prog {i : Instr} {s t : State} (h : exec i s = .next t) : t.prog = s.prog := by
  rcases exec_cases i s with ⟨_, e⟩ | ⟨_, _, e⟩ | ⟨_, _, _, _, e⟩ | ⟨_, _, _, _, e⟩ | ⟨_, _, _, e⟩ | ⟨_, _, _, e⟩ <;>
    · rw [e] at h; cases h; simp

end Sys2Proof.Machine
end

