-- ==== Sys2Proof/Laws/Memory.lean ====
section
/-! SUPPORT. Program memory: what a read answers, and the canonical form of its listing. -/

namespace Sys2Proof.Machine

/-- A read inside the program answers the cells from `addr` on. -/
theorem memRead_of_le {prog : List U3} {addr n : Nat} (h : addr + n ≤ prog.length) :
    memRead prog addr n = some ((prog.drop addr).take n) := by simp [memRead, h]

/-- A read past the end answers nothing. -/
theorem memRead_of_lt {prog : List U3} {addr n : Nat} (h : prog.length < addr + n) :
    memRead prog addr n = none := by simp [memRead, h]

/-- The cells that a read answers are the program's cells at those addresses. -/
theorem memRead_getElem? {prog cells : List U3} {addr n j : Nat} (h : memRead prog addr n = some cells) (hj : j < n) :
    cells[j]? = prog[addr + j]? := by
  unfold memRead at h
  split at h
  · cases h; simp [hj]
  · cases h

/-- A two-cell read inside the program answers the pair of cells there. -/
theorem memRead_pair {prog : List U3} {addr : Nat} (h : addr + 1 < prog.length) :
    memRead prog addr 2 = some [prog[addr], prog[addr + 1]] := by
  rw [memRead_of_le (by omega), List.drop_eq_getElem_cons (by omega), List.drop_eq_getElem_cons h]
  rfl

theorem length_memListing (prog : List U3) : (memListing prog).length = prog.length := by simp [memListing]

/-- Every program's listing is in canonical form. -/
theorem memListing_wf (prog : List U3) : Memory.wf (memListing prog) = true := by
  simp [Memory.wf, memListing, List.ext_getElem_iff]

/-- The listing pairs each address with the cell that a read there answers. -/
theorem memListing_getElem? (prog : List U3) (addr : Nat) :
    (memListing prog)[addr]? = (prog[addr]?).map fun v => (addr, v) := by simp [memListing]

/-- The two cells placed at `addr` are read back. -/
theorem memRead_placePair (prog : List U3) (addr : Nat) (p q : U3) :
    memRead (placePair prog addr p q) addr 2 = some [p, q] := by
  have hlen : (prog.take addr ++ List.replicate (addr - prog.length) (0 : U3)).length = addr := by
    simp; omega
  have hdrop : (placePair prog addr p q).drop addr = p :: q :: prog.drop (addr + 2) := by
    rw [placePair, List.append_assoc, List.drop_append_of_le_length (by omega), List.drop_of_length_le (by omega)]
    rfl
  rw [memRead_of_le, hdrop]
  · rfl
  · have := congrArg List.length hdrop
    simp at this; omega

/-- Placing a pair leaves every cell at another address of the program as it was. -/
theorem placePair_getElem?_of_ne {prog : List U3} {addr j : Nat} (p q : U3) (hj : j < prog.length)
    (h0 : j ≠ addr) (h1 : j ≠ addr + 1) : (placePair prog addr p q)[j]? = prog[j]? := by
  have hlen : (prog.take addr ++ List.replicate (addr - prog.length) (0 : U3)).length = addr := by
    simp; omega
  rw [placePair, List.append_assoc]
  rcases Nat.lt_or_ge j addr with h | h
  · rw [List.getElem?_append_left (by omega), List.getElem?_append_left (by simp; omega)]
    simp [h]
  · rw [List.getElem?_append_right (by omega), hlen]
    obtain ⟨d, rfl⟩ : ∃ d, j = addr + 2 + d := ⟨j - addr - 2, by omega⟩
    have : addr + 2 + d - addr = d + 2 := by omega
    simp [this]

/-- The canonical form holds at reset. -/
theorem reset_memory_wf : Memory.wf (memListing State.reset.prog) = true := memListing_wf _

end Sys2Proof.Machine
end

