-- ==== Sys2Proof/Laws/PerInstr.lean ====
section
/-! SUPPORT. Statements about every instruction as syntax, one lemma per constructor (LAWS.json). -/

namespace Sys2Proof.Laws.Pairing

/-- An instruction's two cells decode to it (30_encoding.md R60, R62), and it is ill-formed exactly when it is of combo
kind with operand 7 (R66 to R68). -/
def Statement (i : Instr) : Prop :=
  decodePair i.opcode i.operand = i ∧
  i.wellFormed = (match i.kind with | .combo => comboLegal i.operand | .literal => true | .ignored => true)

theorem adv (o : U3) : Statement (.adv o) := ⟨rfl, rfl⟩
theorem bxl (o : U3) : Statement (.bxl o) := ⟨rfl, rfl⟩
theorem bst (o : U3) : Statement (.bst o) := ⟨rfl, rfl⟩
theorem jnz (o : U3) : Statement (.jnz o) := ⟨rfl, rfl⟩
theorem bxc (o : U3) : Statement (.bxc o) := ⟨rfl, rfl⟩
theorem out (o : U3) : Statement (.out o) := ⟨rfl, rfl⟩
theorem bdv (o : U3) : Statement (.bdv o) := ⟨rfl, rfl⟩
theorem cdv (o : U3) : Statement (.cdv o) := ⟨rfl, rfl⟩

end Sys2Proof.Laws.Pairing
end

