-- ==== Sys2Proof/Laws/Step.lean ====
section
/-! SUPPORT. The step and its reports: everything each of them can do. -/

namespace Sys2Proof.Machine

theorem halted_iff (s : State) : halted s = true ↔ s.prog.length ≤ s.pc + 1 := decide_eq_true_iff

/-- Not halted, the step fetches the pair of cells at `pc` and decodes it. -/
theorem nextInstr_of_lt {s : State} (h : s.pc + 1 < s.prog.length) :
    nextInstr s = some (decodePair s.prog[s.pc] s.prog[s.pc + 1]) := by
  have hh : halted s = false := decide_eq_false (by rw [State.len]; omega)
  simp [nextInstr, hh, fetch, Config.ilen, memRead_pair h]

theorem nextInstr_of_halted {s : State} (h : halted s = true) : nextInstr s = none := by simp [nextInstr, h]

theorem nextInstr_eq_none_iff (s : State) : nextInstr s = none ↔ halted s = true := by
  refine ⟨fun h => ?_, nextInstr_of_halted⟩
  by_contra hh
  rw [nextInstr_of_lt (by simp [halted_iff] at hh; omega)] at h
  cases h

/-- An instruction executes only from `pc <= LEN - 2` (R81). -/
theorem lt_of_nextInstr {s : State} {i : Instr} (h : nextInstr s = some i) : s.pc + 1 < s.prog.length := by
  by_contra hlt
  rw [nextInstr_of_halted ((halted_iff s).2 (by omega))] at h
  cases h

theorem step_of_fault {s : State} {f : FaultRecord} (h : s.fsr = some f) :
    step s = .fault (.aborted f.cause f.fpc) := by simp [step, h]

theorem step_of_halted {s : State} (hf : s.fsr = none) (h : halted s = true) : step s = .next s := by
  simp [step, hf, nextInstr_of_halted h]

/-- A step runs the decoded instruction. -/
theorem step_of_nextInstr {s : State} {i : Instr} (hf : s.fsr = none) (h : nextInstr s = some i) :
    step s = exec i s := by simp [step, hf, h]

/-- Everything a step that answers a next state can have done. -/
theorem step_cases {s t : State} (h : step s = .next t) :
    s.fsr = none ∧ ((halted s = true ∧ t = s) ∨ ∃ i, nextInstr s = some i ∧ exec i s = .next t) := by
  cases hf : s.fsr with
  | some f => rw [step_of_fault hf] at h; cases h
  | none =>
    refine ⟨rfl, ?_⟩
    cases hi : nextInstr s with
    | none =>
      have hh := (nextInstr_eq_none_iff s).1 hi
      rw [step_of_halted hf hh] at h
      cases h
      exact .inl ⟨hh, rfl⟩
    | some i => exact .inr ⟨i, rfl, by rw [← step_of_nextInstr hf hi]; exact h⟩

/-- A step of an instance that no fault has stopped answers a next state. -/
theorem step_next {s : State} (hf : s.fsr = none) : ∃ t, step s = .next t := by
  cases hi : nextInstr s with
  | none => exact ⟨s, step_of_halted hf ((nextInstr_eq_none_iff s).1 hi)⟩
  | some i => rw [step_of_nextInstr hf hi]; exact exec_next i s

theorem stepState_of_next {s t : State} (h : step s = .next t) : stepState s = t := by simp [stepState, h]

theorem cycle_of_fault {s : State} {f : FaultRecord} (h : s.fsr = some f) : cycle s = (.faulted f.cause, s) := by
  simp [cycle, h]

theorem cycle_of_halted {s : State} (hf : s.fsr = none) (h : halted s = true) : cycle s = (.halted, s) := by
  simp [cycle, hf, h]

/-- The host's bounded run takes one step and goes on from the state it answers. -/
theorem core_run_succ (M : Host.Core) (n : Nat) (s : M.State) :
    Host.Core.run M (n + 1) s =
      match M.step s with
      | .next t => Host.Core.run M n t
      | .fault r => .fault r
      | .refused r => .refused r := rfl

theorem core_run_succ_of_next (M : Host.Core) {s t : M.State} (h : M.step s = .next t) (n : Nat) :
    Host.Core.run M (n + 1) s = Host.Core.run M n t := by
  rw [core_run_succ, h]

theorem core_run_succ_of_fault (M : Host.Core) {s : M.State} {r : M.Fault} (h : M.step s = .fault r) (n : Nat) :
    Host.Core.run M (n + 1) s = .fault r := by
  rw [core_run_succ, h]

/-- Everything a report can say. -/
theorem cycle_cases (s : State) :
    (∃ f, s.fsr = some f ∧ cycle s = (.faulted f.cause, s)) ∨
    (s.fsr = none ∧ halted s = true ∧ cycle s = (.halted, s)) ∨
    (s.fsr = none ∧ halted s = false ∧ ∃ t f, step s = .next t ∧ t.fsr = some f ∧ cycle s = (.faulted f.cause, t)) ∨
    (s.fsr = none ∧ halted s = false ∧ ∃ t, step s = .next t ∧ t.fsr = none ∧ cycle s = (.stepped, t)) := by
  cases hf : s.fsr with
  | some f => exact .inl ⟨f, rfl, cycle_of_fault hf⟩
  | none =>
    cases hh : halted s with
    | true => exact .inr (.inl ⟨rfl, rfl, cycle_of_halted hf hh⟩)
    | false =>
      obtain ⟨t, ht⟩ := step_next hf
      cases hft : t.fsr with
      | some f =>
        exact .inr (.inr (.inl ⟨rfl, rfl, t, f, ht, hft, by simp [cycle, hf, hh, stepState_of_next ht, hft]⟩))
      | none => exact .inr (.inr (.inr ⟨rfl, rfl, t, ht, hft, by simp [cycle, hf, hh, stepState_of_next ht, hft]⟩))

/-- `Stepped`: the instruction at `pc` was executed and raised no fault. -/
theorem cycle_stepped {s t : State} (h : cycle s = (.stepped, t)) :
    s.fsr = none ∧ t.fsr = none ∧ ∃ i, nextInstr s = some i ∧ exec i s = .next t := by
  rcases cycle_cases s with ⟨f, _, e⟩ | ⟨_, _, e⟩ | ⟨_, _, u, f, _, _, e⟩ | ⟨hf, hh, u, hu, hfu, e⟩ <;>
    rw [e] at h <;> simp at h
  subst h
  rcases (step_cases hu).2 with ⟨h1, _⟩ | h1
  · simp [hh] at h1
  · exact ⟨hf, hfu, h1⟩

theorem stepsFor_succ_of_stepped {s t : State} (h : cycle s = (.stepped, t)) (n : Nat) :
    stepsFor (n + 1) s = stepsFor n t := by simp [stepsFor, h]

/-- One more step at the front of a run. -/
theorem stepsFor_succ {n : Nat} {s t : State} (h : stepsFor (n + 1) s = some t) :
    ∃ u, cycle s = (.stepped, u) ∧ stepsFor n u = some t := by
  unfold stepsFor at h
  split at h
  · rename_i u e; exact ⟨u, e, h⟩
  · cases h
  · cases h

/-- The runs of `m + n` steps are those of `m` steps followed by those of `n`. -/
theorem stepsFor_add (m n : Nat) (s : State) : stepsFor (m + n) s = (stepsFor m s).bind (stepsFor n) := by
  induction m generalizing s with
  | zero => simp [stepsFor]
  | succ m ih =>
    rw [Nat.add_right_comm]
    simp only [stepsFor]
    split
    · exact ih _
    · rfl
    · rfl

/-- One more step at the end of a run. -/
theorem stepsFor_succ_last (n : Nat) (s : State) :
    stepsFor (n + 1) s = (stepsFor n s).bind fun t => stepsFor 1 t := stepsFor_add n 1 s

theorem stepsFor_one {s t : State} : stepsFor 1 s = some t ↔ cycle s = (.stepped, t) := by
  constructor
  · intro h
    obtain ⟨u, e, h⟩ := stepsFor_succ h
    cases h; exact e
  · intro h; simp [stepsFor, h]

/-- What one `Stepped` step keeps, every run keeps. -/
theorem stepsFor_keeps {P : State → Prop} (hstep : ∀ s t, cycle s = (.stepped, t) → P s → P t) :
    ∀ n s t, stepsFor n s = some t → P s → P t
  | 0, s, t, h, hs => by cases h; exact hs
  | n + 1, s, t, h, hs => by
    obtain ⟨u, e, h⟩ := stepsFor_succ h
    exact stepsFor_keeps hstep n u t h (hstep s u e hs)

end Sys2Proof.Machine
end

