-- ==== Sys2Proof/Machine/Assembly.lean ====
section
/-! DEFINITION. The written form of instructions and programs (30_encoding.md R71): mnemonic, one space, the operand
cell as one decimal digit; a trailing odd cell is written `.cell <value>`. -/

namespace Sys2Proof.Machine

/-- The decimal digit of a cell value. -/
def digit (v : U3) : String :=
  match v.toFin with
  | 0 => "0"
  | 1 => "1"
  | 2 => "2"
  | 3 => "3"
  | 4 => "4"
  | 5 => "5"
  | 6 => "6"
  | 7 => "7"

/-- `<mnemonic> <operand>`: the value of the operand cell, not its resolved value (R71). -/
def asm (i : Instr) : String := i.mnemonic ++ " " ++ digit i.operand

/-- The annotation that a combo operand 4, 5, 6 may carry (R71); it carries no information. -/
def annotation (i : Instr) : String :=
  match i.kind with
  | .literal => ""
  | .ignored => ""
  | .combo =>
    match i.operand.toFin with
    | 4 => " (A)"
    | 5 => " (B)"
    | 6 => " (C)"
    | _ => ""

/-- The written form with the annotation, as in `out 4 (A)` (R71). -/
def asmAnnotated (i : Instr) : String := asm i ++ annotation i

/-- A program written line by line from cell 0 in the even-aligned reading (R71). -/
def listing : List U3 → List String
  | opcode :: operand :: rest => asm (decodePair opcode operand) :: listing rest
  | [v] => [".cell " ++ digit v]
  | [] => []

end Sys2Proof.Machine
end

