-- ==== Sys2Proof/Tests/Slice0.lean ====
section
/-! SUPPORT. The model's own tests. Expected values are the spec's (95_test_vectors.md unless another file is named);
the witnesses show states and operands that meet the hypotheses of the statements. -/

namespace Sys2Proof.Tests

open Sys2Proof Sys2Proof.Machine

/-- The next state of an outcome, for tests. -/
def nextOf (x : Host.Outcome State Fault Refusal) : Option State :=
  match x with
  | .next t => some t
  | .fault _ => none
  | .refused _ => none

/-- A small instance at cell `pc` with the given registers. -/
def machine (prog : List U3) (pc : Nat) (x y z : Word) : State :=
  { pc := pc, a := x, b := y, c := z, out := [], fsr := none, prog := prog }

/-- MIN as a register value. -/
def minW : Word := BitVec.ofInt 64 Config.minWord

/-- MAX as a register value. -/
def maxW : Word := BitVec.ofInt 64 Config.maxWord

/-! ### Well-formedness: each check refuses its ill-formed term, and accepts its neighbours (30_encoding.md R68) -/

theorem test_wf_refuses_adv7 : (Instr.adv 7).wellFormed = false := by decide
theorem test_wf_refuses_bst7 : (Instr.bst 7).wellFormed = false := by decide
theorem test_wf_refuses_out7 : (Instr.out 7).wellFormed = false := by decide
theorem test_wf_refuses_bdv7 : (Instr.bdv 7).wellFormed = false := by decide
theorem test_wf_refuses_cdv7 : (Instr.cdv 7).wellFormed = false := by decide
theorem test_wf_accepts_seven_not_combo :
    ((Instr.bxl 7).wellFormed && (Instr.jnz 7).wellFormed && (Instr.bxc 7).wellFormed && (Instr.adv 6).wellFormed)
      = true := by decide

/-! ### Decoding: words written bit by bit from the opcode map, opcode bits 5 to 3, operand bits 2 to 0 (R61, R62) -/

theorem test_decode_adv : decodeTableWord 8 0b000001 = some (.adv 1) := by decide
theorem test_decode_bxl : decodeTableWord 8 0b001111 = some (.bxl 7) := by decide
theorem test_decode_bst : decodeTableWord 8 0b010110 = some (.bst 6) := by decide
theorem test_decode_jnz : decodeTableWord 8 0b011100 = some (.jnz 4) := by decide
theorem test_decode_bxc : decodeTableWord 8 0b100111 = some (.bxc 7) := by decide
theorem test_decode_out : decodeTableWord 8 0b101100 = some (.out 4) := by decide
theorem test_decode_bdv : decodeTableWord 8 0b110101 = some (.bdv 5) := by decide
theorem test_decode_cdv : decodeTableWord 8 0b111011 = some (.cdv 3) := by decide
theorem test_decode_refuses_bit_above_the_word : decodeTableWord 8 0b1000001 = none := by decide
theorem test_decode_wide_opcode : decode [8, 0] = .cellRange 8 := by decide
theorem test_decode_wide_operand : decode [4, 9] = .cellRange 9 := by decide
theorem test_decode_dangling_cell : decode [5] = .truncated := by decide
theorem test_encode_out4 : encode (.out 4) = [5, 4] := by decide

/-! ### adv, bdv, cdv -/

/-- S7: "dividing A=-7 by 2¹ ... yields -3, not -4". -/
theorem test_adv_truncates : nextOf (exec (.adv 1) (machine [0, 1] 0 (-7) 0 0)) = some (machine [0, 1] 2 (-3) 0 0) := by
  decide
/-- V32. -/
theorem test_adv_negative_exponent : nextOf (exec (.adv 5) (machine [0, 5] 0 5 (-1) 0)) =
    some { machine [0, 5] 0 5 (-1) 0 with fsr := some { cause := .negativeExponent, fpc := 0 } } := by decide
/-- V21: A unchanged, the old B is the exponent. -/
theorem test_bdv_old_b : nextOf (exec (.bdv 5) (machine [6, 5] 0 100 3 0)) = some (machine [6, 5] 2 100 12 0) := by
  decide
/-- V37, first half: MIN divided by 2^63. -/
theorem test_bdv_min_by_63 : nextOf (exec (.bdv 5) (machine [6, 5] 0 minW 63 64)) =
    some (machine [6, 5] 2 minW (-1) 64) := by decide
/-- V22. -/
theorem test_cdv_negative_dividend : nextOf (exec (.cdv 6) (machine [7, 6] 0 (-100) 0 2)) =
    some (machine [7, 6] 2 (-100) 0 (-25)) := by decide
/-- V36. -/
theorem test_cdv_invalid_combo : nextOf (exec (.cdv 7) (machine [7, 7] 0 5 0 0)) =
    some { machine [7, 7] 0 5 0 0 with fsr := some { cause := .invalidCombo, fpc := 0 } } := by decide
/-- V20: the exponent MAX. -/
theorem test_pow2div_huge_exponent : pow2div minW maxW.toNat = 0 := by decide
/-- V12. -/
theorem test_pow2div_min_by_62 : (pow2div minW 62).toInt = -2 := by decide

/-! ### bxl, bst, bxc -/

/-- X9: the literal 4, not A. -/
theorem test_bxl_literal_four : nextOf (exec (.bxl 4) (machine [1, 4] 0 9 5 0)) = some (machine [1, 4] 2 9 1 0) := by
  decide
/-- X6. -/
theorem test_bxl_negative : nextOf (exec (.bxl 7) (machine [1, 7] 0 0 (-1) 0)) = some (machine [1, 7] 2 0 (-8) 0) := by
  decide
/-- T9: the old B is read, the residue is not negative. -/
theorem test_bst_negative_source : nextOf (exec (.bst 5) (machine [2, 5] 0 0 (-3) 0)) =
    some (machine [2, 5] 2 0 5 0) := by decide
/-- T2. -/
theorem test_bst_constant : nextOf (exec (.bst 3) (machine [2, 3] 0 0 99 0)) = some (machine [2, 3] 2 0 3 0) := by
  decide
/-- C2: operand 7 ignored. -/
theorem test_bxc_ignores_operand : nextOf (exec (.bxc 7) (machine [4, 7] 0 0 2024 43690)) =
    some (machine [4, 7] 2 0 44354 43690) := by decide
/-- C8: all 64 bits take part. -/
theorem test_bxc_all_bits : nextOf (exec (.bxc 0) (machine [4, 0] 0 0 minW maxW)) =
    some (machine [4, 0] 2 0 (-1) maxW) := by decide

/-! ### jnz, out -/

/-- J4: MIN is not zero; the target is a cell index. -/
theorem test_jnz_taken_on_min : nextOf (exec (.jnz 4) (machine [3, 4, 5, 1, 5, 2] 0 minW 0 0)) =
    some (machine [3, 4, 5, 1, 5, 2] 4 minW 0 0) := by decide
/-- J10. -/
theorem test_jnz_not_taken : nextOf (exec (.jnz 0) (machine [3, 0] 0 0 0 0)) = some (machine [3, 0] 2 0 0 0) := by
  decide
/-- O9. -/
theorem test_out_negative : nextOf (exec (.out 4) (machine [5, 4] 0 (-10) 0 0)) =
    some { machine [5, 4] 2 (-10) 0 0 with out := [6] } := by decide
/-- O6: only the low three bits. -/
theorem test_out_low_bits : nextOf (exec (.out 5) (machine [5, 5] 0 0 8 0)) =
    some { machine [5, 5] 2 0 8 0 with out := [0] } := by decide

/-! ### Step, halt, faults and the host -/

/-- J8 (second step): after an odd jump the trailing cell is an operand. -/
theorem test_step_odd_alignment : nextOf (step (machine [3, 1, 5] 1 1 6 0)) = some (machine [3, 1, 5] 3 1 3 0) := by
  decide
/-- J7: the last cell is never an opcode. -/
theorem test_cycle_last_cell_halts : cycle (machine [3, 5, 5, 1, 5, 2] 5 1 0 0) =
    (.halted, machine [3, 5, 5, 1, 5, 2] 5 1 0 0) := by decide
/-- H5 (first step): `Faulted(InvalidCombo)` with FSR = (1, 1, 0). -/
theorem test_cycle_raises : (cycle (machine [5, 7] 0 0 0 0)).1 = .faulted .invalidCombo ∧
    fsrFields (cycle (machine [5, 7] 0 0 0 0)).2 = some (1, 0) := by decide
/-- H5 (`run`). -/
theorem test_run_aborts : runFor 2 (machine [5, 7] 0 0 0 0) = some (.aborted .invalidCombo 0) := by decide
/-- H1: LEN 0. -/
theorem test_run_empty : runFor 1 (State.construct [] 1 2 3) = some (.done []) := by decide
theorem test_step_after_reset_runs_the_word : nextOf (step (State.reset.withFetchWord 8 0o51)) =
    some { machine [5, 1] 2 0 0 0 with out := [1] } := by decide
/-- 60_exceptions.md R142: the ignored operand of `bxc` is checked too in a wide-cell model. -/
theorem test_wide_bxc_operand : nextOf (wideStep [4, 8] (machine [] 0 1 2 3)) =
    some { machine [] 0 1 2 3 with fsr := some { cause := .cellRange, fpc := 0 } } := by decide
/-- 10_state.md R27, 60_exceptions.md R140: the cause codes. -/
theorem test_cause_codes : (causeCode .invalidCombo, causeCode .cellRange, causeCode .negativeExponent) = (1, 2, 3) := by
  decide
/-- 70_reset_and_hazards.md R172. -/
theorem test_construct_refuses_cell_8 : construct? [8] 0 0 0 = none := by decide
theorem test_construct_refuses_max_plus_1 : construct? [] (2 ^ 63) 0 0 = none := by decide
theorem test_construct_takes_min : (construct? [7] (-(2 ^ 63)) 0 0).isSome = true := by decide
/-- 30_encoding.md R71. -/
theorem test_listing : listing [0, 1, 5, 4, 3] = ["adv 1", "out 4", ".cell 3"] := by decide
theorem test_annotation : asmAnnotated (.out 4) = "out 4 (A)" := by decide

/-! ### Witnesses: states and operands that meet the hypotheses of the statements, clause by clause -/

theorem witness_InstructionWordsRoundTrip : 6 ≤ 6 ∧ decodeTableWord 6 (encodeWord (.cdv 7)).toNat = some (.cdv 7) := by
  decide
theorem witness_ProgramsRoundTrip : ([3, 1, 5, 7] : List U3).length % 2 = 0 ∧ ([] : List U3).length % 2 = 0 := by decide
/-- An odd cell index: one cell before the instruction. -/
theorem witness_EncodedInstructionsAreFetched_odd : (machine [3, 1, 5] 1 1 6 0).fsr = none ∧
    (machine [3, 1, 5] 1 1 6 0).prog = [3] ++ encode (.bxl 5) ++ [] ∧ (machine [3, 1, 5] 1 1 6 0).pc = [3].length := by
  decide
theorem witness_EncodedInstructionsAreFetched_last : (machine [0, 1, 5, 4] 2 0 0 0).fsr = none ∧
    (machine [0, 1, 5, 4] 2 0 0 0).prog = encodeProgram [.adv 1, .out 4] ∧
    (machine [0, 1, 5, 4] 2 0 0 0).pc = 2 * 1 ∧ [Instr.adv 1, .out 4][1]? = some (.out 4) := by decide
theorem witness_WideDecoderRejectsByName : (7 < 8) ∧ (7 ≤ 7 ∧ 7 < 8) ∧ (7 ≤ 7 ∧ 0 ≤ 7) := by decide
theorem witness_StepRunsTheDecodedInstruction : (machine [0, 0, 7, 7] 2 0 0 0).fsr = none ∧
    memRead (machine [0, 0, 7, 7] 2 0 0 0).prog (machine [0, 0, 7, 7] 2 0 0 0).pc 2 = some [7, 7] := by decide
theorem witness_PlacedWordIsTheNextInstruction : decodeTableWord 8 63 = some (.cdv 7) := by decide
theorem witness_TdivTruncatesTowardZero : (0 : Int) < 1 ∧ (0 : Int) ≤ 0 ∧ (-1 : Int) < 0 := by decide
theorem witness_Pow2divIsTheExactQuotient : (63 = 63 ∧ minW.toInt = Config.minWord) ∧ 64 ≤ 64 := by decide
theorem witness_BiasedShiftIsPow2div : 63 ≤ 63 ∧ minW.toInt < 0 := by decide
theorem witness_PlainShiftDivergesOnNegatives : 0 ≤ (0 : Word).toInt ∧ ((-7 : Word).toInt < 0 ∧ 1 ≤ 63) ∧
    ¬ (2 : Int) ^ 1 ∣ (-7 : Word).toInt := by decide
theorem witness_Xor64IsBitwise : 0 < 64 ∧ 63 < 64 ∧ 0 ≤ (0 : Word).toInt ∧ 0 ≤ maxW.toInt := by decide
theorem witness_ComboOperandTable : (4 : U3).toNat = (0 : Fin 3).val + 4 ∧ (6 : U3).toNat = (2 : Fin 3).val + 4 := by
  decide
theorem witness_SevenIsLegalWhenNotCombo : (machine [3, 7] 0 (-1) 0 0).a ≠ 0 ∧ (machine [3, 7] 0 0 0 0).a = 0 := by
  decide
/-- Also the witness of BdvDividesAIntoB and CdvDividesAIntoC: a constant, and the largest exponent a register gives. -/
theorem witness_AdvDividesA : (combo 0 (machine [] 0 1 0 maxW) = some 0 ∧ 0 ≤ (0 : Word).toInt) ∧
    (combo 6 (machine [] 0 1 0 maxW) = some maxW ∧ 0 ≤ maxW.toInt) := by decide
theorem witness_NegativeExponentIsAFault : combo 5 (machine [] 0 5 (-1) 0) = some (-1) ∧ (-1 : Word).toInt < 0 := by
  decide
theorem witness_DivisionReadsOldValues : 0 ≤ (machine [] 0 0 3 2).a.toInt ∧ 0 ≤ (machine [] 0 0 3 2).b.toInt ∧
    0 ≤ (machine [] 0 0 3 2).c.toInt := by decide
theorem witness_BxlXorsTheLiteral : 3 ≤ 3 := by decide
theorem witness_BxcXorsCIntoB : (machine [] 0 0 5 0).c = 0 ∧ (machine [] 0 0 6 6).b = (machine [] 0 0 6 6).c ∧
    ((machine [] 0 0 0 0).fsr = none ∧ [4, 8].drop (machine [] 0 0 0 0).pc = [4, 8] ∧ 7 < 8) := by decide
/-- Also the witness of OutAppendsTheResidue. -/
theorem witness_BstStoresTheResidue : combo 3 (machine [] 0 0 0 0) = some 3 ∧
    combo 4 (machine [] 0 minW 0 0) = some minW := by decide
theorem witness_JnzJumpsWhenANotZero : (machine [] 0 (-1) 0 0).a.toInt ≠ 0 ∧ (machine [] 0 0 0 0).a.toInt = 0 ∧
    (machine [3, 7] 0 1 0 0).len ≤ (7 : U3).toNat + 1 := by decide
theorem witness_JnzFallsThroughWhenAZero : (machine [3, 0] 0 0 0 0).a = 0 ∧ (machine [3, 0] 0 0 0 0).fsr = none ∧
    nextInstr (machine [3, 0] 0 0 0 0) = some (.jnz 0) ∧
    (machine [3, 0] 0 0 0 0).pc + 2 = (machine [3, 0] 0 0 0 0).len := by decide
/-- J9. -/
theorem witness_SelfJumpRunsForEver : (machine [3, 0] 0 1 0 0).fsr = none ∧ (machine [3, 0] 0 1 0 0).a ≠ 0 ∧
    nextInstr (machine [3, 0] 0 1 0 0) = some (.jnz 0) ∧ (0 : U3).toNat = (machine [3, 0] 0 1 0 0).pc := by decide
/-- Two states that agree on the registers `bxc` reads and differ elsewhere. -/
theorem witness_RegisterReadsAndWrites : (machine [] 4 1 2 3).fsr = none ∧ (machine [7] 4 9 2 3).fsr = none ∧
    (machine [] 4 1 2 3).pc = (machine [7] 4 9 2 3).pc ∧
    (∀ r ∈ readsOf (.bxc 0), (machine [] 4 1 2 3).reg r = (machine [7] 4 9 2 3).reg r) ∧
    nextOf (exec (.bxc 0) (machine [] 4 1 2 3)) = some (machine [] 6 1 1 3) ∧ (3 : U3).toNat ≤ 3 := by decide
theorem witness_NoInstructionReadsTheProgram : exec (.bxl 0) (machine [] 0 0 0 0) = .next (machine [] 2 0 0 0) := rfl
theorem witness_OutputIsAppendOnly : exec (.out 3) (machine [] 0 0 0 0) = .next { machine [] 2 0 0 0 with out := [3] } ∧
    (3 : U3) ≠ 7 ∧ exec (.out 7) (machine [] 0 0 0 0) = .next ((machine [] 0 0 0 0).enterFault .invalidCombo) ∧
    stepsFor 1 (machine [5, 3] 0 0 0 0) = some { machine [5, 3] 2 0 0 0 with out := [3] } :=
  ⟨rfl, by decide, rfl, by decide⟩
theorem witness_ProgramMemoryIsNeverWritten : exec (.bxl 7) (machine [1, 7] 0 0 29 0) = .next (machine [1, 7] 2 0 26 0) ∧
    stepsFor 1 (machine [1, 7] 0 0 29 0) = some (machine [1, 7] 2 0 26 0) ∧
    EndsNormally (machine [1, 7] 2 0 26 0) (machine [1, 7] 2 0 26 0) ∧
    EndsByFault (machine [0, 7] 0 1 0 0) ((machine [0, 7] 0 1 0 0).enterFault .invalidCombo) :=
  ⟨by rfl, by decide, ⟨0, rfl, by decide⟩, ⟨0, _, .invalidCombo, rfl, by decide⟩⟩
/-- A step that changes A, one that changes B, one that changes C, one that appends, and one that changes nothing. -/
theorem witness_StepChangesAtMostOneThing :
    cycle (machine [0, 1] 0 10 0 0) = (.stepped, machine [0, 1] 2 5 0 0) ∧
    cycle (machine [1, 7] 0 0 29 0) = (.stepped, machine [1, 7] 2 0 26 0) ∧
    cycle (machine [7, 0] 0 42 0 0) = (.stepped, machine [7, 0] 2 42 0 42) ∧
    cycle (machine [5, 3] 0 0 0 0) = (.stepped, { machine [5, 3] 2 0 0 0 with out := [3] }) ∧
    cycle (machine [3, 0] 0 1 0 0) = (.stepped, machine [3, 0] 0 1 0 0) := by decide
theorem witness_StepIsTotal : (machine [] 0 0 0 0).fsr = none ∧
    step ((machine [5, 7] 0 0 0 0).enterFault .invalidCombo) = .fault (.aborted .invalidCombo 0) := ⟨rfl, rfl⟩
/-- `pc = LEN - 1` on the halting side, `pc = LEN - 2` on the other; LEN 1 at construction. -/
theorem witness_HaltTestComesFirst : (machine [5, 4, 5] 2 0 0 0).len ≤ (machine [5, 4, 5] 2 0 0 0).pc + 1 ∧
    (machine [5, 4, 5] 1 0 0 0).pc + 1 < (machine [5, 4, 5] 1 0 0 0).len ∧ ([5] : List U3).length ≤ 1 := by decide
theorem witness_HaltedStateStaysHalted : (machine [5] 0 1 2 3).fsr = none ∧ halted (machine [5] 0 1 2 3) = true := by
  decide
theorem witness_FaultIsSticky : ((machine [5, 7] 0 0 0 0).enterFault .invalidCombo).fsr =
    some { cause := .invalidCombo, fpc := 0 } := by decide
theorem witness_PcChangesInTwoWays_taken : cycle (machine [3, 7] 0 1 0 0) = (.stepped, machine [3, 7] 7 1 0 0) ∧
    takesJump (machine [3, 7] 0 1 0 0) ∧ nextInstr (machine [3, 7] 0 1 0 0) = some (.jnz 7) :=
  ⟨by decide, ⟨rfl, by decide, 7, by decide⟩, by decide⟩
theorem witness_PcChangesInTwoWays_notTaken : cycle (machine [3, 7] 0 0 0 0) = (.stepped, machine [3, 7] 2 0 0 0) ∧
    ¬ takesJump (machine [3, 7] 0 0 0 0) ∧ (cycle (machine [5, 7] 0 0 0 0)).1 ≠ .stepped :=
  ⟨by decide, fun h => absurd h.2.1 (by decide), by decide⟩
/-- Also the witness of JumpFreeRunLength: a run of one instruction, from construction, with no jump in it. -/
theorem witness_PcChangesInTwoWays_run :
    stepsFor 1 (State.construct [1, 7] 0 29 0) = some (machine [1, 7] 2 0 26 0) ∧
    ∀ k u, k < 1 → stepsFor k (State.construct [1, 7] 0 29 0) = some u → ¬ takesJump u := by
  refine ⟨by decide, fun k u hk hu hj => ?_⟩
  obtain rfl : k = 0 := by omega
  cases hu
  exact absurd hj.2.1 (by decide)
/-- H4. -/
theorem witness_ReportDescribesTheStateFound : (machine [5, 1] 0 0 0 0).fsr = none ∧
    nextInstr (machine [5, 1] 0 0 0 0) = some (.out 1) ∧
    exec (.out 1) (machine [5, 1] 0 0 0 0) = .next { machine [5, 1] 2 0 0 0 with out := [1] } ∧
    halted { machine [5, 1] 2 0 0 0 with out := [1] } = true ∧
    stepsFor 1 (machine [5, 1] 0 0 0 0) = some { machine [5, 1] 2 0 0 0 with out := [1] } :=
  ⟨rfl, by decide, rfl, by decide, by decide⟩
/-- Both causes: P4 (second step) and P7 (second step). -/
theorem witness_FaultEntryIsPrecise :
    (step (machine [5, 0, 0, 7] 2 12 0 0) = .next ((machine [5, 0, 0, 7] 2 12 0 0).enterFault .invalidCombo) ∧
      (machine [5, 0, 0, 7] 2 12 0 0).fsr = none) ∧
    (step (machine [5, 1, 6, 5] 2 8 (-2) 0) = .next ((machine [5, 1, 6, 5] 2 8 (-2) 0).enterFault .negativeExponent) ∧
      (machine [5, 1, 6, 5] 2 8 (-2) 0).fsr = none) := ⟨⟨rfl, rfl⟩, rfl, rfl⟩
/-- A state whose step jumps, and one whose step enters a fault. -/
theorem witness_StepKeepsReasonable :
    (step (machine [3, 7] 0 1 0 0) = .next (machine [3, 7] 7 1 0 0) ∧ Reasonable (machine [3, 7] 0 1 0 0)) ∧
    (step (machine [5, 7] 0 0 0 0) = .next ((machine [5, 7] 0 0 0 0).enterFault .invalidCombo) ∧
      Reasonable (machine [5, 7] 0 0 0 0)) :=
  ⟨⟨rfl, by decide, trivial⟩, rfl, by decide, trivial⟩
theorem witness_NonNegativityIsKept : step (machine [0, 4] 0 5 0 0) = .next (machine [0, 4] 2 0 0 0) ∧
    NonNegative (machine [0, 4] 0 5 0 0) ∧ stepsFor 1 (machine [0, 4] 0 5 0 0) = some (machine [0, 4] 2 0 0 0) ∧
    (step (machine [5, 7] 0 0 0 0) = .next ((machine [5, 7] 0 0 0 0).enterFault .invalidCombo) ∧
      NonNegative (machine [5, 7] 0 0 0 0)) :=
  ⟨rfl, by decide, by decide, rfl, by decide⟩
theorem witness_MagnitudeOfANeverGrows : stepsFor 1 (machine [0, 1] 0 minW 0 0) =
    some (machine [0, 1] 2 (BitVec.ofInt 64 (-(2 ^ 62))) 0 0) ∧
    stepsFor 1 (machine [0, 1] 0 0 0 0) = some (machine [0, 1] 2 0 0 0) := by decide
theorem witness_RunEndsInExactlyOneWay : EndsNormally (machine [] 0 1 2 3) (machine [] 0 1 2 3) ∧
    EndsByFault (machine [0, 7] 0 1 0 0) ((machine [0, 7] 0 1 0 0).enterFault .invalidCombo) :=
  ⟨⟨0, rfl, by decide⟩, 0, _, .invalidCombo, rfl, by decide⟩
theorem witness_WellFormedProgramsDoNotFault : staticallyWellFormed (machine [0, 1, 5, 4, 3, 0] 0 10 0 0).prog = true ∧
    (machine [0, 1, 5, 4, 3, 0] 0 10 0 0).fsr = none ∧ NonNegative (machine [0, 1, 5, 4, 3, 0] 0 10 0 0) ∧
    stepsFor 1 (machine [0, 1, 5, 4, 3, 0] 0 10 0 0) = some (machine [0, 1, 5, 4, 3, 0] 2 5 0 0) := by decide
theorem witness_StepKeepsFaultFree : step (machine [0, 1, 5, 4, 3, 0] 0 10 0 0) =
    .next (machine [0, 1, 5, 4, 3, 0] 2 5 0 0) ∧ FaultFree (machine [0, 1, 5, 4, 3, 0] 0 10 0 0) :=
  ⟨rfl, by decide⟩
theorem witness_ConstructionDomain : construct? [0, 7] (-(2 ^ 63)) (2 ^ 63 - 1) 0 =
    some (machine [0, 7] 0 minW maxW 0) := by decide
theorem witness_MemReadAnswersTheCells : 1 + 2 ≤ ([5, 4, 5] : List U3).length ∧ ([5, 4, 5] : List U3).length < 2 + 2 ∧
    halted (machine [5, 4, 5] 1 0 0 0) = false := by decide
theorem witness_WideStepRefinesToStep : (∀ v ∈ [5, 7], v ≤ 7) ∧
    (machine [5, 7] 0 0 0 0).prog = [5, 7].map (BitVec.ofNat 3) := by decide
theorem witness_WideStepRaisesCellRange : (machine [] 1 0 0 0).fsr = none ∧
    [0, 8, 0, 9].drop (machine [] 1 0 0 0).pc = [8, 0, 9] ∧ (7 < 8 ∨ 7 < 0) ∧
    ([0, 8, 0, 9].drop (machine [] 1 0 0 0).pc).take 2 = ([0, 8, 0, 1].drop (machine [] 1 0 0 0).pc).take 2 := by decide

end Sys2Proof.Tests
end

/-! PROOFS. The primitives of 00_scope.md: truncating division (R8) and exclusive OR (R12). -/

namespace Sys2Proof.Machine

/-! ### Truncating division -/

theorem tdiv_of_nonneg {a : Int} (d : Int) (ha : 0 ≤ a) : tdiv a d = a / d := if_pos ha

theorem tdiv_of_neg {a : Int} (d : Int) (ha : a < 0) : tdiv a d = -((-a) / d) := if_neg (by omega)

theorem tdiv_neg_left (a d : Int) : tdiv (-a) d = -tdiv a d := by
  simp only [tdiv_eq_int_tdiv, Int.neg_tdiv]

/-- `q` and `r` are a quotient and a remainder of `a` by `d` in the sense of R8. -/
def IsTruncatedDivision (a d q r : Int) : Prop :=
  a = q * d + r ∧ |r| < d ∧ (r = 0 ∨ r.sign = a.sign)

/-- Existence: what `tdiv` leaves over is the remainder R8 asks for. -/
theorem isTruncatedDivision_tdiv (a : Int) {d : Int} (hd : 0 < d) :
    IsTruncatedDivision a d (tdiv a d) (a.tmod d) := by
  rw [tdiv_eq_int_tdiv]
  refine ⟨(Int.tdiv_mul_add_tmod a d).symm,
    abs_lt.mpr ⟨Int.lt_tmod_of_pos a hd, Int.tmod_lt_of_pos a hd⟩, ?_⟩
  by_cases hdvd : d ∣ a
  · exact .inl (Int.tmod_eq_zero_of_dvd hdvd)
  · exact .inr (by rw [Int.sign_tmod, if_neg hdvd])

/-- The mirror image of a truncated division, which a floor division does not have. -/
theorem IsTruncatedDivision.neg {a d q r : Int} (h : IsTruncatedDivision a d q r) :
    IsTruncatedDivision (-a) d (-q) (-r) := by
  obtain ⟨ha, hr, hsign⟩ := h
  refine ⟨by rw [ha]; ring, by rwa [abs_neg], ?_⟩
  rwa [neg_eq_zero, Int.sign_neg, Int.sign_neg, neg_inj]

/-- Uniqueness for a dividend that is not negative: the remainder is then the Euclidean one. -/
theorem IsTruncatedDivision.eq_tdiv_of_nonneg {a d q r : Int} (h : IsTruncatedDivision a d q r)
    (ha : 0 ≤ a) : q = tdiv a d := by
  obtain ⟨hsum, hr, hsign⟩ := h
  obtain ⟨-, hlt⟩ := abs_lt.mp hr
  have hr0 : 0 ≤ r := by
    rcases hsign with rfl | hsign
    · rfl
    · rwa [← Int.sign_nonneg_iff, hsign, Int.sign_nonneg_iff]
  have heuclid : r + d * q = a ∧ 0 ≤ r ∧ r < d := ⟨by rw [hsum]; ring, hr0, hlt⟩
  rw [tdiv_of_nonneg d ha]
  exact ((Int.ediv_emod_unique (by omega)).mpr heuclid).1.symm

/-- Uniqueness for every dividend: a negative one is the mirror image of a positive one. -/
theorem IsTruncatedDivision.eq_tdiv {a d q r : Int} (h : IsTruncatedDivision a d q r) :
    q = tdiv a d := by
  rcases Int.le_total 0 a with ha | ha
  · exact h.eq_tdiv_of_nonneg ha
  · have hneg : -q = tdiv (-a) d := h.neg.eq_tdiv_of_nonneg (by omega)
    rwa [tdiv_neg_left, neg_inj] at hneg

theorem eq_tdiv_iff_exists_isTruncatedDivision {a d : Int} (hd : 0 < d) (q : Int) :
    q = tdiv a d ↔ ∃ r, IsTruncatedDivision a d q r := by
  constructor
  · rintro rfl
    exact ⟨_, isTruncatedDivision_tdiv a hd⟩
  · rintro ⟨r, h⟩
    exact h.eq_tdiv

/-- Settles O10: the floor form is the definition's two branches, and uniqueness for a negative dividend is that for
its mirror image. -/
theorem tdivTruncatesTowardZero : Obligations.TdivTruncatesTowardZero := by
  unfold Obligations.TdivTruncatesTowardZero
  refine ⟨fun a d hd => ⟨tdiv_of_nonneg d, tdiv_of_neg d, ?_⟩, by decide, two_pow_pos⟩
  exact eq_tdiv_iff_exists_isTruncatedDivision hd

/-! ### Exclusive OR -/

theorem xor64_getLsbD (a b : Word) (i : Nat) :
    (xor64 a b).getLsbD i = (a.getLsbD i != b.getLsbD i) := BitVec.getLsbD_xor

@[simp] theorem xor64_zero (a : Word) : xor64 a 0 = a := BitVec.xor_zero

@[simp] theorem xor64_self (a : Word) : xor64 a a = 0 := BitVec.xor_self

theorem xor64_comm (a b : Word) : xor64 a b = xor64 b a := BitVec.xor_comm a b

theorem xor64_assoc (a b c : Word) : xor64 (xor64 a b) c = xor64 a (xor64 b c) :=
  BitVec.xor_assoc a b c

/-- The sign of an exclusive OR is the exclusive OR of the signs, since the sign of a word is its top bit. -/
theorem xor64_toInt_neg_iff (a b : Word) :
    (xor64 a b).toInt < 0 ↔ ¬ (a.toInt < 0 ↔ b.toInt < 0) := by
  have hmsb : (xor64 a b).msb = (a.msb ^^ b.msb) := BitVec.msb_xor
  simp only [BitVec.msb_eq_toInt] at hmsb
  by_cases ha : a.toInt < 0 <;> by_cases hb : b.toInt < 0 <;> simpa [ha, hb] using hmsb

/-- Settles O14: each law is that of the bits, and the sign is the top bit. -/
theorem xor64IsBitwise : Obligations.Xor64IsBitwise := by
  unfold Obligations.Xor64IsBitwise
  refine ⟨fun a b => ?_, by decide⟩
  exact ⟨fun i _ => xor64_getLsbD a b i, word_toInt_bounds _, xor64_zero a, xor64_self a, xor64_comm a b,
    xor64_assoc a b, xor64_nonneg, xor64_toInt_neg_iff a b⟩

end Sys2Proof.Machine

/-! PROOFS. The state an instruction reads and leaves (10_state.md): registers (R21), output (R29) and `pc` (R24). -/

namespace Sys2Proof.Machine

/-! ### The effect of an instruction, apart from the state it is applied to

An instruction first works out, from the registers it reads, the one thing it does; the state then takes that thing in.
The first part is `effectOf`, the second `Effect.apply`, and `exec_eq_apply` says that they are `exec`. -/

/-- The one thing an instruction does to the state. -/
inductive Effect
  /-- enter a fault (60_exceptions.md R147) -/
  | fault (cause : FaultCause)
  /-- write a register and advance -/
  | write (r : Reg) (v : Word)
  /-- append a value to the output and advance -/
  | append (v : U3)
  /-- set `pc`, with no advance (40_cycle.md R84) -/
  | jump (target : Nat)
  /-- advance and nothing else -/
  | skip

/-- The state that takes in an effect. -/
def Effect.apply (e : Effect) (s : State) : State :=
  match e with
  | .fault cause => s.enterFault cause
  | .write r v => (s.setReg r v).advance
  | .append v => (s.outAppend v).advance
  | .jump target => s.jumpTo target
  | .skip => s.advance

/-- The registers an effect writes. -/
def Effect.writes : Effect → List Reg
  | .fault _ => []
  | .write r _ => [r]
  | .append _ => []
  | .jump _ => []
  | .skip => []

/-- The values an effect appends to the output. -/
def Effect.emits : Effect → List U3
  | .fault _ => []
  | .write _ _ => []
  | .append v => [v]
  | .jump _ => []
  | .skip => []

/-- The effect of an instruction of combo kind: InvalidCombo, or what its resolved operand gives. -/
def comboEffect (o : U3) (s : State) (k : Word → Effect) : Effect :=
  match combo o s with
  | none => .fault .invalidCombo
  | some v => k v

/-- The effect of a division with exponent `k`: NegativeExponent, or the quotient of A written to `dest`. -/
def quotientEffect (dest : Reg) (a k : Word) : Effect :=
  if k.toInt < 0 then .fault .negativeExponent else .write dest (pow2div a k.toNat)

/-- What an instruction does in a state. -/
def effectOf (i : Instr) (s : State) : Effect :=
  match i with
  | .adv o => comboEffect o s (quotientEffect .a s.a)
  | .bxl o => .write .b (xor64 s.b (lit o))
  | .bst o => comboEffect o s fun v => .write .b ((mod8 v).setWidth 64)
  | .jnz o => if jumpTaken s then .jump o.toNat else .skip
  | .bxc _ => .write .b (xor64 s.b s.c)
  | .out o => comboEffect o s fun v => .append (mod8 v)
  | .bdv o => comboEffect o s (quotientEffect .b s.a)
  | .cdv o => comboEffect o s (quotientEffect .c s.a)

/-- Resolving an operand and applying what it gives is applying the effect. -/
theorem withCombo_eq_apply {o : U3} {s : State} {f : Word → Host.Outcome State Fault Refusal} {k : Word → Effect}
    (h : ∀ v, f v = .next ((k v).apply s)) : withCombo o s f = .next ((comboEffect o s k).apply s) := by
  cases hc : combo o s with
  | none => simp only [withCombo_none hc, comboEffect, hc, Effect.apply]
  | some v => simp only [withCombo_some hc, comboEffect, hc, h]

theorem divideInto_eq_apply (dest : Reg) (o : U3) (s : State) :
    divideInto dest o s = .next ((comboEffect o s (quotientEffect dest s.a)).apply s) := by
  refine withCombo_eq_apply fun k => ?_
  by_cases hk : k.toInt < 0 <;> simp [quotientEffect, hk, raiseFault, Effect.apply]

/-- `exec` applies the effect of the instruction. -/
theorem exec_eq_apply (i : Instr) (s : State) : exec i s = .next ((effectOf i s).apply s) := by
  cases i with
  | adv o => exact divideInto_eq_apply .a o s
  | bdv o => exact divideInto_eq_apply .b o s
  | cdv o => exact divideInto_eq_apply .c o s
  | bxl o => rfl
  | bxc o => rfl
  | bst o => exact withCombo_eq_apply fun _ => rfl
  | out o => exact withCombo_eq_apply fun _ => rfl
  | jnz o => cases hj : jumpTaken s <;> simp [exec, execJnz, effectOf, hj, Effect.apply]

theorem exec_eq_next_iff {i : Instr} {s t : State} : exec i s = .next t ↔ (effectOf i s).apply s = t := by
  rw [exec_eq_apply, Host.Outcome.next.injEq]

/-! ### What an effect leaves in each field -/

section
variable (e : Effect) (s : State)

theorem apply_out : (e.apply s).out = s.out ++ e.emits := by
  cases e <;> simp [Effect.apply, Effect.emits]

/-- An effect leaves the registers that it does not write. -/
theorem apply_reg_of_notMem {r : Reg} (h : r ∉ e.writes) : (e.apply s).reg r = s.reg r := by
  cases e with
  | write q v =>
    have hrq : r ≠ q := by simpa [Effect.writes] using h
    exact (reg_setReg s q r v).trans (if_neg hrq)
  | fault cause => cases r <;> rfl
  | append v => cases r <;> rfl
  | jump target => cases r <;> rfl
  | skip => cases r <;> rfl

/-- The register that an effect writes gets a value which the effect alone gives. -/
theorem apply_reg_of_mem (s' : State) {r : Reg} (h : r ∈ e.writes) : (e.apply s).reg r = (e.apply s').reg r := by
  cases e with
  | write q v =>
    obtain rfl : r = q := by simpa [Effect.writes] using h
    exact (reg_setReg s r r v).trans ((reg_setReg s' r r v).trans (by simp)).symm
  | fault cause => cases h
  | append v => cases h
  | jump target => cases h
  | skip => cases h

/-- The new `pc` and FSR depend on the state through the old ones only. -/
theorem apply_pc_fsr_congr {s' : State} (hpc : s.pc = s'.pc) (hfsr : s.fsr = s'.fsr) :
    (e.apply s).pc = (e.apply s').pc ∧ (e.apply s).fsr = (e.apply s').fsr := by
  cases e <;> simp [Effect.apply, hpc, hfsr]

/-- An effect takes no account of the output that stands already. -/
theorem apply_withOut (l : List U3) : e.apply { s with out := l } = { e.apply s with out := l ++ e.emits } := by
  cases e with
  | write r v => cases r <;> simp [Effect.apply, Effect.emits, State.setReg, State.advance]
  | fault cause => simp [Effect.apply, Effect.emits, State.enterFault]
  | append v => rfl
  | jump target => simp [Effect.apply, Effect.emits, State.jumpTo]
  | skip => simp [Effect.apply, Effect.emits, State.advance]

/-- A state without a fault has one after an effect only if that is fault entry. -/
theorem apply_eq_enterFault {f : FaultRecord} (hs : s.fsr = none) (hf : (e.apply s).fsr = some f) :
    e.apply s = s.enterFault f.cause := by
  cases e with
  | fault cause =>
    obtain rfl : FaultRecord.mk cause s.pc = f := Option.some.inj hf
    rfl
  | write r v => simp [Effect.apply, hs] at hf
  | append v => simp [Effect.apply, hs] at hf
  | jump target => simp [Effect.apply, hs] at hf
  | skip => simp [Effect.apply, hs] at hf
end

/-! ### Registers (R21) -/

/-- An effect enters a fault, or writes exactly `rs`. -/
def Effect.FaultsOrWrites (e : Effect) (rs : List Reg) : Prop := (∃ cause, e = .fault cause) ∨ e.writes = rs

theorem comboEffect_faultsOrWrites {k : Word → Effect} {rs : List Reg} (o : U3) (s : State)
    (h : ∀ v, (k v).FaultsOrWrites rs) : (comboEffect o s k).FaultsOrWrites rs := by
  unfold comboEffect
  split
  · exact .inl ⟨_, rfl⟩
  · exact h _

theorem quotientEffect_faultsOrWrites (dest : Reg) (a k : Word) :
    (quotientEffect dest a k).FaultsOrWrites [dest] := by
  unfold quotientEffect
  split
  · exact .inl ⟨_, rfl⟩
  · exact .inr rfl

/-- An instruction that enters no fault writes exactly the register of the table. -/
theorem effectOf_faultsOrWrites (i : Instr) (s : State) : (effectOf i s).FaultsOrWrites (writesOf i) := by
  cases i with
  | adv o => exact comboEffect_faultsOrWrites o s (quotientEffect_faultsOrWrites .a s.a)
  | bdv o => exact comboEffect_faultsOrWrites o s (quotientEffect_faultsOrWrites .b s.a)
  | cdv o => exact comboEffect_faultsOrWrites o s (quotientEffect_faultsOrWrites .c s.a)
  | bst o => exact comboEffect_faultsOrWrites o s fun _ => .inr rfl
  | out o => exact comboEffect_faultsOrWrites o s fun _ => .inr rfl
  | bxl o => exact .inr rfl
  | bxc o => exact .inr rfl
  | jnz o => exact .inr (by cases hj : jumpTaken s <;> simp [effectOf, hj, Effect.writes, writesOf])

theorem effectOf_writes_subset (i : Instr) (s : State) : (effectOf i s).writes ⊆ writesOf i := by
  rcases effectOf_faultsOrWrites i s with ⟨cause, h⟩ | h
  · rw [h]; exact List.nil_subset _
  · rw [h]; exact List.Subset.refl _

theorem length_writesOf_le_one (i : Instr) : (writesOf i).length ≤ 1 := by
  cases i <;> simp [writesOf]

/-- No instruction changes a register outside its writes. -/
theorem exec_reg_of_notMem {i : Instr} {s t : State} {r : Reg} (h : exec i s = .next t) (hr : r ∉ writesOf i) :
    t.reg r = s.reg r := by
  rw [← exec_eq_next_iff.1 h]
  exact apply_reg_of_notMem _ s fun hmem => hr (effectOf_writes_subset i s hmem)

/-- Combo resolution depends on the register its operand names, if any; `bst` reads nothing else. -/
theorem combo_congr_of_reads {o : U3} {s s' : State} (h : ∀ r ∈ readsOf (.bst o), s.reg r = s'.reg r) :
    combo o s = combo o s' := by
  revert h; revert o
  apply forall_operand
  intro n
  fin_cases n <;> simp [readsOf, combo]

/-- The effect of an instruction depends on no register but those it reads. -/
theorem effectOf_congr {i : Instr} {s s' : State} (h : ∀ r ∈ readsOf i, s.reg r = s'.reg r) :
    effectOf i s = effectOf i s' := by
  have viaCombo {o : U3} (k : Word → Effect) (ho : ∀ r ∈ readsOf (.bst o), s.reg r = s'.reg r) :
      comboEffect o s k = comboEffect o s' k := by
    simp only [comboEffect, combo_congr_of_reads ho]
  have division (dest : Reg) {o : U3} (ho : ∀ r ∈ .a :: readsOf (.bst o), s.reg r = s'.reg r) :
      comboEffect o s (quotientEffect dest s.a) = comboEffect o s' (quotientEffect dest s'.a) := by
    obtain ⟨ha, ho⟩ := List.forall_mem_cons.1 ho
    rw [viaCombo _ ho, show s.a = s'.a from ha]
  cases i with
  | adv o => exact division .a h
  | bdv o => exact division .b h
  | cdv o => exact division .c h
  | bst o => exact viaCombo _ h
  | out o => exact viaCombo _ h
  | bxl o =>
    have hb : s.b = s'.b := h .b (by simp [readsOf])
    simp only [effectOf, hb]
  | bxc o =>
    have hb : s.b = s'.b := h .b (by simp [readsOf])
    have hc : s.c = s'.c := h .c (by simp [readsOf])
    simp only [effectOf, hb, hc]
  | jnz o =>
    have ha : s.a = s'.a := h .a (by simp [readsOf])
    have htaken : jumpTaken s = jumpTaken s' := by rw [jumpTaken, jumpTaken, ha]
    simp only [effectOf, htaken]

/-- Only operands 4, 5 and 6 name a register. -/
theorem readsOf_bst_of_le {o : U3} (h : o.toNat ≤ 3) : readsOf (.bst o) = [] := by
  revert h; revert o
  apply forall_operand
  intro n
  fin_cases n <;> simp [readsOf]

/-- Settles O32: from two states that agree on the registers an instruction reads it has the same effect, and an
effect brings along the values that it writes. -/
theorem registerReadsAndWrites : Obligations.RegisterReadsAndWrites := by
  unfold Obligations.RegisterReadsAndWrites
  refine ⟨fun i s t h => ⟨fun r hr => exec_reg_of_notMem h hr, length_writesOf_le_one i⟩, ?_,
    fun o => ⟨rfl, rfl, rfl, rfl, rfl, rfl, rfl, rfl⟩,
    fun o => ⟨rfl, rfl, rfl, rfl, rfl, rfl, rfl, readsOf_bst_of_le⟩, rfl, rfl, rfl⟩
  intro i s s' hf hf' hpc hreads
  have heff : effectOf i s' = effectOf i s := (effectOf_congr hreads).symm
  obtain ⟨hpc, hfsr⟩ := apply_pc_fsr_congr (effectOf i s) s hpc (hf.trans hf'.symm)
  refine ⟨_, _, exec_eq_apply i s, heff ▸ exec_eq_apply i s', hpc, hfsr, fun hok => ?_⟩
  have hwrites : (effectOf i s).writes = writesOf i := by
    rcases effectOf_faultsOrWrites i s with ⟨cause, h⟩ | h
    · rw [h] at hok; cases hok
    · exact h
  exact ⟨fun r hr => apply_reg_of_mem _ s s' (hwrites ▸ hr), (effectOf i s).emits, apply_out _ s, apply_out _ s'⟩

/-! ### Output (R29) -/

theorem exec_out_of_ne_out {i : Instr} {s t : State} (h : exec i s = .next t) (hi : ∀ o, i ≠ .out o) :
    t.out = s.out := by
  rcases exec_cases i s with ⟨_, e⟩ | ⟨_, _, e⟩ | ⟨_, _, _, _, e⟩ | ⟨o, _, _, ho, _⟩ | ⟨_, _, _, e⟩ | ⟨_, _, _, e⟩
  case inr.inr.inr.inl => exact absurd ho (hi o)
  all_goals rw [e] at h; cases h; simp

/-- `out` with a legal operand appends one value. -/
theorem exec_out_of_ne_seven {o : U3} {s t : State} (h : exec (.out o) s = .next t) (ho : o ≠ 7) :
    ∃ m : U3, t.out = s.out ++ [m] := by
  rcases execOut_cases o s with ⟨h7, _⟩ | ⟨v, _, e⟩
  · exact absurd h7 ho
  · cases e.symm.trans h
    exact ⟨mod8 v, rfl⟩

/-- `out 7` enters the fault, which leaves the output. -/
theorem exec_out_seven {s t : State} (h : exec (.out 7) s = .next t) : t.out = s.out := by
  rcases execOut_cases 7 s with ⟨_, e⟩ | ⟨v, hv, _⟩
  · cases e.symm.trans h; rfl
  · rw [(combo_eq_none_iff 7 s).2 rfl] at hv; cases hv

/-- An instruction appends the same to any output. -/
theorem exec_withOut {i : Instr} {s t : State} (l : List U3) (h : exec i s = .next t) :
    exec i { s with out := l } = .next { t with out := l ++ t.out.drop s.out.length } := by
  have heff : effectOf i { s with out := l } = effectOf i s := effectOf_congr fun r _ => by cases r <;> rfl
  rw [exec_eq_apply, heff, apply_withOut, ← exec_eq_next_iff.1 h, apply_out, List.drop_left]

theorem exec_out_prefix {i : Instr} {s t : State} (h : exec i s = .next t) : s.out <+: t.out := by
  rw [← exec_eq_next_iff.1 h, apply_out]
  exact List.prefix_append _ _

theorem step_out_prefix {s t : State} (h : step s = .next t) : s.out <+: t.out := by
  obtain ⟨_, ⟨_, rfl⟩ | ⟨i, _, hexec⟩⟩ := step_cases h
  · exact List.prefix_rfl
  · exact exec_out_prefix hexec

theorem cycle_out_prefix (s : State) : s.out <+: (cycle s).2.out := by
  rcases cycle_cases s with ⟨_, _, e⟩ | ⟨_, _, e⟩ | ⟨_, _, _, _, h, _, e⟩ | ⟨_, _, _, h, _, e⟩
  · rw [e]
  · rw [e]
  · rw [e]; exact step_out_prefix h
  · rw [e]; exact step_out_prefix h

theorem stepsFor_out_prefix {n : Nat} {s t : State} (h : stepsFor n s = some t) : s.out <+: t.out := by
  refine stepsFor_keeps (P := fun u => s.out <+: u.out) (fun u v e hu => hu.trans ?_) n s t h List.prefix_rfl
  simpa [e] using cycle_out_prefix u

/-- Settles O34: every effect appends a list to the output, and that list does not depend on it. -/
theorem outputIsAppendOnly : Obligations.OutputIsAppendOnly := by
  unfold Obligations.OutputIsAppendOnly
  refine ⟨construct_out, fun i s t h => ⟨exec_out_of_ne_out h, ?_, ?_⟩, fun i s t l => exec_withOut l,
    fun n s t => stepsFor_out_prefix, cycle_out_prefix⟩
  · rintro o rfl ho
    obtain ⟨m, hm⟩ := exec_out_of_ne_seven h ho
    exact ⟨m, Nat.le_of_lt_succ m.isLt, hm⟩
  · rintro rfl
    exact exec_out_seven h

/-! ### `pc` (R24) -/

/-- A fault that an instruction raises leaves the state of fault entry. -/
theorem exec_eq_enterFault {i : Instr} {s t : State} {f : FaultRecord} (h : exec i s = .next t) (hs : s.fsr = none)
    (hf : t.fsr = some f) : t = s.enterFault f.cause := by
  obtain rfl := exec_eq_next_iff.1 h
  exact apply_eq_enterFault _ s hs hf

/-- A fault that a step raises leaves the state of fault entry. -/
theorem step_eq_enterFault {s t : State} {f : FaultRecord} (h : step s = .next t) (hf : t.fsr = some f) :
    t = s.enterFault f.cause := by
  obtain ⟨hs, ⟨_, rfl⟩ | ⟨i, _, hexec⟩⟩ := step_cases h
  · rw [hs] at hf; cases hf
  · exact exec_eq_enterFault hexec hs hf

/-- A `Stepped` step that takes no jump advances. -/
theorem cycle_pc_of_not_takesJump {s t : State} (h : cycle s = (.stepped, t)) (hj : ¬ takesJump s) :
    t.pc = s.pc + 2 := by
  obtain ⟨hs, ht, i, hi, hexec⟩ := cycle_stepped h
  rcases exec_cases i s with ⟨_, e⟩ | ⟨_, _, e⟩ | ⟨_, _, _, _, e⟩ | ⟨_, _, _, _, e⟩ | ⟨o, rfl, ha, _⟩ | ⟨_, _, _, e⟩
  case inr.inr.inr.inr.inl => exact absurd ⟨hs, bne_iff_ne.2 ha, o, hi⟩ hj
  case inl | inr.inl => cases e.symm.trans hexec; cases ht
  all_goals cases e.symm.trans hexec; simp

/-- A `Stepped` step that takes a jump sets `pc` to the literal operand. -/
theorem cycle_pc_of_takesJump {s t : State} {o : U3} (h : cycle s = (.stepped, t)) (hj : takesJump s)
    (hi : nextInstr s = some (.jnz o)) : t.pc = o.toNat := by
  obtain ⟨_, _, i, hi', hexec⟩ := cycle_stepped h
  obtain ⟨_, htaken, _⟩ := hj
  obtain rfl : i = .jnz o := Option.some.inj (hi'.symm.trans hi)
  rcases execJnz_cases o s with ⟨_, e⟩ | ⟨ha, _⟩
  · cases e.symm.trans hexec; rfl
  · exact absurd ha (bne_iff_ne.1 htaken)

/-- A step that does not report `Stepped` leaves `pc`. -/
theorem cycle_pc_of_not_stepped {s : State} (h : (cycle s).1 ≠ .stepped) : (cycle s).2.pc = s.pc := by
  rcases cycle_cases s with ⟨_, _, e⟩ | ⟨_, _, e⟩ | ⟨_, _, t, f, hstep, hf, e⟩ | ⟨_, _, _, _, _, e⟩
  · rw [e]
  · rw [e]
  · rw [e, step_eq_enterFault hstep hf]; rfl
  · rw [e] at h; exact absurd rfl h

/-- A run that takes no jump keeps the parity of `pc`. -/
theorem stepsFor_pc_parity {n : Nat} {s t : State} (h : stepsFor n s = some t)
    (hj : ∀ k u, k < n → stepsFor k s = some u → ¬ takesJump u) : t.pc % 2 = s.pc % 2 := by
  induction n generalizing s with
  | zero => cases h; rfl
  | succ n ih =>
    obtain ⟨u, hu, h⟩ := stepsFor_succ h
    have hpc : u.pc = s.pc + 2 := cycle_pc_of_not_takesJump hu (hj 0 s (Nat.succ_pos n) rfl)
    have hrest : t.pc % 2 = u.pc % 2 := ih h fun k v hk hv =>
      hj (k + 1) v (Nat.succ_lt_succ hk) ((stepsFor_succ_of_stepped hu k).trans hv)
    omega

/-- Settles O41: of all that an instruction can do (`exec_cases`), a fault leaves `pc`, a taken jump sets it, and the
rest advances it by 2, which keeps its parity. -/
theorem pcChangesInTwoWays : Obligations.PcChangesInTwoWays := by
  unfold Obligations.PcChangesInTwoWays
  refine ⟨construct_pc, fun s t h => ⟨cycle_pc_of_not_takesJump h, fun o hj hi => ?_⟩, fun s => cycle_pc_of_not_stepped,
    fun n s t => stepsFor_pc_parity⟩
  have hpc : t.pc = o.toNat := cycle_pc_of_takesJump h hj hi
  exact ⟨by rw [hpc, lit_toNat], by rw [hpc]; exact Nat.le_of_lt_succ o.isLt⟩

end Sys2Proof.Machine

/-! PROOFS. Program memory (20_memory.md): what a read answers (R41), and that nothing writes it (R42). -/

namespace Sys2Proof.Machine

/-! ### No write (R42) -/

theorem step_prog {s t : State} (h : step s = .next t) : t.prog = s.prog := by
  obtain ⟨_, ⟨_, rfl⟩ | ⟨i, _, hexec⟩⟩ := step_cases h
  · rfl
  · exact exec_prog hexec

/-- Whatever a step reports, it leaves program memory. -/
theorem cycle_prog (s : State) : (cycle s).2.prog = s.prog := by
  rcases cycle_cases s with ⟨_, _, e⟩ | ⟨_, _, e⟩ | ⟨_, _, _, _, hstep, _, e⟩ | ⟨_, _, _, hstep, _, e⟩
  · rw [e]
  · rw [e]
  · rw [e]; exact step_prog hstep
  · rw [e]; exact step_prog hstep

theorem stepsFor_prog {n : Nat} {s t : State} (h : stepsFor n s = some t) : t.prog = s.prog := by
  refine stepsFor_keeps (P := fun u => u.prog = s.prog) (fun u v e hu => ?_) n s t h rfl
  calc v.prog = u.prog := by simpa [e] using cycle_prog u
    _ = s.prog := hu

theorem EndsNormally.prog_eq {s t : State} (h : EndsNormally s t) : t.prog = s.prog := by
  obtain ⟨n, hrun, _⟩ := h
  exact stepsFor_prog hrun

/-- A run that ends by fault has one step more than its `Stepped` steps: the one that raises the fault. -/
theorem EndsByFault.prog_eq {s t : State} (h : EndsByFault s t) : t.prog = s.prog := by
  obtain ⟨n, u, cause, hrun, hlast⟩ := h
  calc t.prog = u.prog := by simpa [hlast] using cycle_prog u
    _ = s.prog := stepsFor_prog hrun

/-- Settles O35: no instruction writes program memory (`exec_prog`), so no step does, and a run, with either ending,
consists of steps. -/
theorem programMemoryIsNeverWritten : Obligations.ProgramMemoryIsNeverWritten := by
  unfold Obligations.ProgramMemoryIsNeverWritten
  exact ⟨fun i s t => exec_prog, cycle_prog, fun n s t => stepsFor_prog,
    fun s t h => h.elim EndsNormally.prog_eq EndsByFault.prog_eq⟩

/-! ### What a read answers (R41) -/

theorem length_of_memRead {prog cells : List U3} {addr n : Nat} (h : memRead prog addr n = some cells) :
    cells.length = n := by
  rcases Nat.lt_or_ge prog.length (addr + n) with hlt | hle
  · rw [memRead_of_lt hlt] at h
    cases h
  · rw [memRead_of_le hle] at h
    cases h
    rw [List.length_take, List.length_drop]
    omega

theorem lt_of_not_halted {s : State} (h : halted s = false) : s.pc + 1 < s.prog.length := by
  by_contra hge
  have hh : halted s = true := (halted_iff s).2 (by omega)
  rw [hh] at h
  cases h

/-- Settles O54: a read inside the program is a slice of it (`memRead_of_le`), an instance that is not halted has both
cells of its pair inside (`lt_of_not_halted`), and a run leaves the program as it was (`stepsFor_prog`). -/
theorem memReadAnswersTheCells : Obligations.MemReadAnswersTheCells := by
  unfold Obligations.MemReadAnswersTheCells
  refine ⟨fun p addr n => ⟨fun hle => ?_, memRead_of_lt⟩, fun s hs => ?_, fun k s t addr n h => ?_⟩
  · have hread := memRead_of_le hle
    exact ⟨_, hread, length_of_memRead hread, fun j => memRead_getElem? hread⟩
  · have hlt := lt_of_not_halted hs
    exact ⟨_, _, memRead_pair hlt, List.getElem?_eq_getElem (Nat.lt_of_succ_lt hlt), List.getElem?_eq_getElem hlt,
      nextInstr_of_lt hlt⟩
  · rw [stepsFor_prog h]

end Sys2Proof.Machine

/-! PROOFS. Operand resolution (30_encoding.md section 3): literal (R64), combo (R65), and operand 7 where it is not a
combo operand (R67). -/

namespace Sys2Proof.Machine

/-! ### Literal operands (R64) -/

theorem lit_toInt_bounds (o : U3) : 0 ≤ (lit o).toInt ∧ (lit o).toInt ≤ 7 := by
  have hlt : o.toNat < 8 := o.isLt
  rw [lit_toInt]
  omega

/-- Settles O16: the value is the operand itself (`lit_toInt`), and well-formedness does not look at a literal. -/
theorem literalOperandIsZeroExtended : Obligations.LiteralOperandIsZeroExtended := by
  unfold Obligations.LiteralOperandIsZeroExtended
  intro o
  obtain ⟨hnonneg, hle⟩ := lit_toInt_bounds o
  exact ⟨rfl, lit_toInt o, hnonneg, hle, rfl, rfl⟩

/-! ### Combo operands (R65) -/

/-- The rows 4, 5, 6 of the table, in the numbering `x[o - 4]` of R20. -/
theorem combo_of_register (s : State) (j : Fin 3) {o : U3} (h : o.toNat = j.val + 4) :
    combo o s = some (s.reg (Reg.ofIndex j)) := by
  obtain rfl : o = BitVec.ofNat 3 (j.val + 4) := by rw [← h, BitVec.ofNat_toNat, BitVec.setWidth_eq]
  fin_cases j
  · exact congrArg some (reg_a s).symm
  · exact congrArg some (reg_b s).symm
  · exact congrArg some (reg_c s).symm

/-- An instruction that resolves operand 7 enters the fault, whatever it would do with a value (R66). -/
theorem withCombo_seven (s : State) (k : Word → Host.Outcome State Fault Refusal) :
    withCombo 7 s k = .next (s.enterFault .invalidCombo) :=
  withCombo_none ((combo_eq_none_iff 7 s).2 rfl) k

/-- Settles O17: the constants are the table's first four rows, the registers are `combo_of_register`, and operand 7
is the one that does not resolve. -/
theorem comboOperandTable : Obligations.ComboOperandTable := by
  unfold Obligations.ComboOperandTable
  intro s
  exact ⟨rfl, rfl, rfl, rfl, combo_of_register s 0 rfl, combo_of_register s 1 rfl, combo_of_register s 2 rfl,
    withCombo_seven s, fun j o => combo_of_register s j⟩

/-! ### Operand 7 where it is not a combo operand (R67) -/

/-- `bxl`, result and frame in one equation (42_bitwise.md R110). -/
theorem exec_bxl (o : U3) (s : State) :
    exec (.bxl o) s = .next { s with b := xor64 s.b (lit o), pc := s.pc + 2 } := rfl

/-- `jnz` with A not 0 only sets `pc` (43_control.md R120). -/
theorem exec_jnz_of_ne_zero (o : U3) {s : State} (h : s.a ≠ 0) :
    exec (.jnz o) s = .next { s with pc := o.toNat } := by
  rcases execJnz_cases o s with ⟨_, e⟩ | ⟨h0, _⟩
  · exact e
  · exact absurd h0 h

/-- `jnz` with A equal to 0 only advances (43_control.md R120). -/
theorem exec_jnz_of_eq_zero (o : U3) {s : State} (h : s.a = 0) :
    exec (.jnz o) s = .next { s with pc := s.pc + 2 } := by
  rcases execJnz_cases o s with ⟨hne, _⟩ | ⟨_, e⟩
  · exact absurd h hne
  · exact e

/-- `bxc` ignores its operand (42_bitwise.md R112). -/
theorem exec_bxc_eq_exec_bxc (p q : U3) (s : State) : exec (.bxc p) s = exec (.bxc q) s := rfl

/-- Settles O18: each part is operand 7 in what its instruction does with every operand. -/
theorem sevenIsLegalWhenNotCombo : Obligations.SevenIsLegalWhenNotCombo := by
  unfold Obligations.SevenIsLegalWhenNotCombo
  refine ⟨by decide, fun s => ?_⟩
  have hlit : lit 7 = 7 := by decide
  exact ⟨hlit ▸ exec_bxl 7 s, exec_jnz_of_ne_zero 7, exec_jnz_of_eq_zero 7, fun o => exec_bxc_eq_exec_bxc 7 o s⟩

end Sys2Proof.Machine

/-! PROOFS. The step's report and the run that consists of steps (40_cycle.md R85, R88). -/

namespace Sys2Proof.Machine

/-! ### The report (R85) -/

/-- Converse of `cycle_stepped`: the state left is not looked at, beyond its FSR. -/
theorem cycle_of_exec {s t : State} {i : Instr} (hs : s.fsr = none) (hi : nextInstr s = some i)
    (hexec : exec i s = .next t) (ht : t.fsr = none) : cycle s = (.stepped, t) := by
  have hstep : step s = .next t := (step_of_nextInstr hs hi).trans hexec
  rcases cycle_cases s with ⟨f, hf, _⟩ | ⟨_, hh, _⟩ | ⟨_, _, u, f, hu, hf, _⟩ | ⟨_, _, u, hu, _, e⟩
  · rw [hs] at hf; cases hf
  · rw [nextInstr_of_halted hh] at hi; cases hi
  · cases hu.symm.trans hstep
    rw [ht] at hf; cases hf
  · cases hu.symm.trans hstep
    exact e

/-! ### Run to completion, watched (R88) -/

theorem runFor_succ_of_stepped {s t : State} (h : cycle s = (.stepped, t)) (n : Nat) :
    runFor (n + 1) s = runFor n t := by simp [runFor, h]

theorem runFor_succ_of_halted {s t : State} (h : cycle s = (.halted, t)) (n : Nat) :
    runFor (n + 1) s = some (.done t.out) := by simp [runFor, h]

/-- After `m` `Stepped` steps `run` goes on from the state they lead to. -/
theorem runFor_add_of_stepsFor {m : Nat} {s t : State} (h : stepsFor m s = some t) (n : Nat) :
    runFor (m + n) s = runFor n t := by
  induction m generalizing s with
  | zero => cases h; rw [Nat.zero_add]
  | succ m ih =>
    obtain ⟨u, hu, hrest⟩ := stepsFor_succ h
    rw [Nat.add_right_comm, runFor_succ_of_stepped hu]
    exact ih hrest

/-- Settles O42: an executed instruction is reported whatever `pc` it leaves (`cycle_of_exec`), and after `n` `Stepped`
steps `run` has still its whole work on the state they lead to (`runFor_add_of_stepsFor`), one `Halted` step. -/
theorem reportDescribesTheStateFound : Obligations.ReportDescribesTheStateFound := by
  unfold Obligations.ReportDescribesTheStateFound
  refine ⟨fun s t i hs hi hexec ht => ⟨cycle_of_exec hs hi hexec ht, cycle_of_halted ht⟩,
    fun n s t h ht hh => ⟨runFor_add_of_stepsFor h 0, ?_⟩⟩
  calc runFor (n + 1) s = runFor 1 t := runFor_add_of_stepsFor h 1
    _ = some (.done t.out) := runFor_succ_of_halted (cycle_of_halted ht hh) 0

end Sys2Proof.Machine

/-! PROOFS. The bitwise instructions on B: `bxl` (42_bitwise.md R110) and `bxc` (R112). -/

namespace Sys2Proof.Machine

/-! ### The opcode bits of an instruction word (30_encoding.md R62) -/

/-- The mask of the opcode map clears the operand and keeps the opcode. -/
theorem encodeWord_and_opcodeMask (i : Instr) : encodeWord i &&& 0b111000 = i.opcode ++ 0#3 :=
  calc encodeWord i &&& 0b111000
    _ = (i.opcode ++ i.operand) &&& (BitVec.allOnes 3 ++ 0#3) := rfl
    _ = (i.opcode &&& BitVec.allOnes 3) ++ (i.operand &&& 0#3) := BitVec.and_append
    _ = i.opcode ++ 0#3 := by rw [BitVec.and_allOnes, BitVec.and_zero]

/-! ### Exclusive OR with a value, and with a literal -/

/-- A second exclusive OR with the same value undoes the first. -/
@[simp] theorem xor64_xor64_cancel_right (a b : Word) : xor64 (xor64 a b) b = a := by
  rw [xor64_assoc, xor64_self, xor64_zero]

/-- Above bit 2 a literal has no bit set. -/
theorem lit_getLsbD_of_le (o : U3) {j : Nat} (hj : 3 ≤ j) : (lit o).getLsbD j = false := by
  rw [lit, BitVec.getLsbD_setWidth, BitVec.getLsbD_of_ge o j hj, Bool.and_false]

theorem xor64_lit_getLsbD_of_le (b : Word) (o : U3) {j : Nat} (hj : 3 ≤ j) :
    (xor64 b (lit o)).getLsbD j = b.getLsbD j := by
  rw [xor64_getLsbD, lit_getLsbD_of_le o hj, Bool.bne_false]

/-- A literal is not negative, so the sign stays. -/
theorem xor64_lit_toInt_neg_iff (b : Word) (o : U3) : (xor64 b (lit o)).toInt < 0 ↔ b.toInt < 0 := by
  obtain ⟨hnonneg, -⟩ := lit_toInt_bounds o
  have hlit : ¬ (lit o).toInt < 0 := Int.not_lt.mpr hnonneg
  rw [xor64_toInt_neg_iff, iff_false_intro hlit, iff_false, not_not]

/-- Settles O25: the mask leaves the opcode (`encodeWord_and_opcodeMask`), and a literal has neither a bit above bit 2
nor a sign. -/
theorem bxlXorsTheLiteral : Obligations.BxlXorsTheLiteral := by
  unfold Obligations.BxlXorsTheLiteral
  refine ⟨fun o s => ?_, by decide⟩
  have hmask : encodeWord (.bxl o) &&& 0b111000 = (1 : U3) ++ 0#3 := encodeWord_and_opcodeMask (.bxl o)
  exact ⟨hmask.trans (by decide), rfl, exec_bxl o s, fun _ hj => xor64_lit_getLsbD_of_le s.b o hj,
    xor64_lit_toInt_neg_iff s.b o, xor64_zero s.b, xor64_xor64_cancel_right s.b (lit o)⟩

/-! ### The operand cell that `bxc` ignores -/

/-- `bxc`, result and frame in one equation (R112). -/
theorem exec_bxc (o : U3) (s : State) :
    exec (.bxc o) s = .next { s with b := xor64 s.b s.c, pc := s.pc + 2 } := rfl

/-- The decoder rejects an operand cell above 7 before it looks at what the opcode is (30_encoding.md R69). -/
theorem decode_of_wide_operand {p q : Nat} (rest : List Nat) (hp : p ≤ 7) (hq : 7 < q) :
    decode (p :: q :: rest) = .cellRange q := by
  have hp' : ¬ Config.maxCell < p := Nat.not_lt.mpr hp
  have hq' : Config.maxCell < q := hq
  rw [decode, if_neg hp', if_pos hq']

/-- A rejected cell is a fault of the wide-cell step (60_exceptions.md R142). -/
theorem wideStep_of_cellRange {cells : List Nat} {s : State} {v : Nat} (hs : s.fsr = none)
    (h : decode (cells.drop s.pc) = .cellRange v) : wideStep cells s = .next (s.enterFault .cellRange) := by
  simp only [wideStep, hs, h, raiseFault]

theorem wideStep_of_wide_operand {cells : List Nat} {s : State} {p q : Nat} {rest : List Nat} (hs : s.fsr = none)
    (hcells : cells.drop s.pc = p :: q :: rest) (hp : p ≤ 7) (hq : 7 < q) :
    wideStep cells s = .next (s.enterFault .cellRange) := by
  refine wideStep_of_cellRange (v := q) hs ?_
  rw [hcells, decode_of_wide_operand rest hp hq]

/-- Settles O26: the corner cases are laws of exclusive OR, and the wide-cell check is that of every operand cell
(`wideStep_of_wide_operand`), here under opcode 4. -/
theorem bxcXorsCIntoB : Obligations.BxcXorsCIntoB := by
  unfold Obligations.BxcXorsCIntoB
  refine ⟨fun o s => ?_, fun cells s v rest hs hcells hv => ?_, by decide⟩
  · have hmask : encodeWord (.bxc o) &&& 0b111000 = (4 : U3) ++ 0#3 := encodeWord_and_opcodeMask (.bxc o)
    exact ⟨hmask.trans (by decide), rfl, exec_bxc o s, fun hc => hc ▸ xor64_zero s.b,
      fun hbc => hbc ▸ xor64_self s.b, xor64_xor64_cancel_right s.b s.c⟩
  · exact wideStep_of_wide_operand hs hcells (by decide) hv

end Sys2Proof.Machine

/-! PROOFS. Control transfer: `jnz` (43_control.md R120, R124). -/

namespace Sys2Proof.Machine

/-! ### The condition on A -/

/-- Whether A is 0 is the same question of the word and of the signed integer it stands for. -/
theorem toInt_eq_zero_iff (a : Word) : a.toInt = 0 ↔ a = 0 := by
  rw [← BitVec.toInt_inj, BitVec.ofNat_eq_ofNat, BitVec.toInt_zero]

/-- Settles O29: the two cases are those of A (`exec_jnz_of_ne_zero`, `exec_jnz_of_eq_zero`), and the halt test looks
only at where the jump leads (`halted_iff`). -/
theorem jnzJumpsWhenANotZero : Obligations.JnzJumpsWhenANotZero := by
  unfold Obligations.JnzJumpsWhenANotZero
  intro o s
  have hmask : encodeWord (.jnz o) &&& 0b111000 = (3 : U3) ++ 0#3 := encodeWord_and_opcodeMask (.jnz o)
  exact ⟨hmask.trans (by decide), rfl, fun ha => exec_jnz_of_ne_zero o (mt (toInt_eq_zero_iff s.a).2 ha),
    fun ha => exec_jnz_of_eq_zero o ((toInt_eq_zero_iff s.a).1 ha), (halted_iff { s with pc := o.toNat }).2⟩

/-! ### The last instruction of a run (R124) -/

/-- A run whose next step leads to a halted state ends normally there. -/
theorem EndsNormally.of_stepped {s t : State} (h : cycle s = (.stepped, t)) (ht : t.fsr = none)
    (hh : halted t = true) : EndsNormally s t :=
  ⟨1, stepsFor_one.2 h, cycle_of_halted ht hh⟩

/-- Settles O30: the advance from `LEN - 2` is a `Stepped` step (`cycle_of_exec`) to `pc = LEN`, which is halted. -/
theorem jnzFallsThroughWhenAZero : Obligations.JnzFallsThroughWhenAZero := by
  unfold Obligations.JnzFallsThroughWhenAZero
  intro o s ha
  have hexec := exec_jnz_of_eq_zero o ha
  refine ⟨hexec, fun hs hi hlen => ?_⟩
  rw [hlen] at hexec
  have hhalted : halted { s with pc := s.len } = true := (halted_iff _).2 (Nat.le_succ s.len)
  exact .of_stepped (cycle_of_exec hs hi hexec hs) hs hhalted

end Sys2Proof.Machine

/-! PROOFS. The decoder and the encoder (30_encoding.md), and the fetch of what they encode (40_cycle.md R81 to R83). -/

namespace Sys2Proof.Machine

/-! ### One instruction: its cells and its word (R60 to R62) -/

@[simp] theorem decodePair_opcode_operand (i : Instr) : decodePair i.opcode i.operand = i := by
  cases i with
  | adv o => exact (Laws.Pairing.adv o).1
  | bxl o => exact (Laws.Pairing.bxl o).1
  | bst o => exact (Laws.Pairing.bst o).1
  | jnz o => exact (Laws.Pairing.jnz o).1
  | bxc o => exact (Laws.Pairing.bxc o).1
  | out o => exact (Laws.Pairing.out o).1
  | bdv o => exact (Laws.Pairing.bdv o).1
  | cdv o => exact (Laws.Pairing.cdv o).1

@[simp] theorem encode_decodePair (p q : U3) : encode (decodePair p q) = [p, q] := by
  rw [encode, opcode_decodePair, operand_decodePair]

theorem decode_encode (i : Instr) (rest : List Nat) :
    decode ((encode i).map BitVec.toNat ++ rest) = .instr i rest := by
  have h := decode_cells i.opcode i.operand rest
  rwa [decodePair_opcode_operand] at h

/-- A word is read by the two halves it is cut into, and the halves of an encoding are its cells. -/
theorem decodeTableWord_encodeWord (i : Instr) {nbits : Nat} (h : 6 ≤ nbits) :
    decodeTableWord nbits (encodeWord i).toNat = some i := by
  have hfit : (encodeWord i).toNat < 2 ^ nbits :=
    Nat.lt_of_lt_of_le (encodeWord i).isLt (Nat.pow_le_pow_right (by decide) h)
  have ho : i.operand.toNat < 8 := i.operand.isLt
  have hcells : tableCells nbits (encodeWord i).toNat = (encode i).map BitVec.toNat ++ [] := by
    rw [tableCells, Nat.mod_eq_of_lt hfit, encodeWord_toNat]
    simp only [encode, List.map_cons, List.map_nil, List.append_nil, List.cons.injEq, and_true]
    omega
  rw [decodeTableWord, hcells, decode_encode]

@[simp] theorem encodeWord_decodeWord (w : BitVec 6) : encodeWord (decodeWord w) = w := by
  have happend : w.extractLsb' 3 3 ++ w.extractLsb' 0 3 = w.extractLsb' 0 6 :=
    BitVec.extractLsb'_append_extractLsb'_eq_extractLsb' (Nat.zero_add 3).symm
  rw [encodeWord, decodeWord, opcode_decodePair, operand_decodePair, happend, BitVec.extractLsb'_eq_self]

/-- Settles O1: from the cells (`decode_encode`), from the word (`decodeTableWord_encodeWord`), and back. -/
theorem instructionWordsRoundTrip : Obligations.InstructionWordsRoundTrip := by
  unfold Obligations.InstructionWordsRoundTrip
  exact ⟨decode_encode, fun i _ => decodeTableWord_encodeWord i, encodeWord_decodeWord⟩

/-! ### Programs in the even-aligned reading (R71, R73) -/

/-- What follows an encoded program is read on its own: the pairs of the program leave no cell over. -/
theorem decodeProgram_encodeProgram_append (is : List Instr) (rest : List U3) :
    decodeProgram (encodeProgram is ++ rest) = is ++ decodeProgram rest := by
  induction is with
  | nil => rfl
  | cons i is ih =>
    rw [encodeProgram_cons, List.cons_append, List.cons_append, decodeProgram, decodePair_opcode_operand, ih]
    rfl

theorem encodeProgram_decodeProgram : ∀ {cells : List U3}, cells.length % 2 = 0 →
    encodeProgram (decodeProgram cells) = cells
  | [], _ => rfl
  | [_], h => by cases h
  | p :: q :: rest, h => by
    have hrest : rest.length % 2 = 0 := by simpa [Nat.add_assoc] using h
    rw [decodeProgram, encodeProgram_cons, opcode_decodePair, operand_decodePair, encodeProgram_decodeProgram hrest]

/-- Settles O2: the program is read off the front of its encoding, whatever follows, and a cell alone is no
instruction. -/
theorem programsRoundTrip : Obligations.ProgramsRoundTrip := by
  unfold Obligations.ProgramsRoundTrip
  refine ⟨fun is => ?_, fun is v => ?_, fun cells => encodeProgram_decodeProgram⟩
  · simpa [decodeProgram] using decodeProgram_encodeProgram_append is []
  · simpa [decodeProgram] using decodeProgram_encodeProgram_append is [v]

/-! ### The fetch (40_cycle.md R81 to R83) -/

/-- A pair that can be read at `pc` is what the next step decodes. -/
theorem nextInstr_of_memRead {s : State} {p q : U3} (h : memRead s.prog s.pc 2 = some [p, q]) :
    nextInstr s = some (decodePair p q) := by
  have hh : halted s = false := by
    by_contra hh
    have hlt : s.prog.length < s.pc + 2 := Nat.lt_succ_of_le ((halted_iff s).1 (by simpa using hh))
    rw [memRead_of_lt hlt] at h
    cases h
  simp [nextInstr, hh, fetch, Config.ilen, h]

theorem step_of_memRead {s : State} {p q : U3} (hs : s.fsr = none) (h : memRead s.prog s.pc 2 = some [p, q]) :
    step s = exec (decodePair p q) s :=
  step_of_nextInstr hs (nextInstr_of_memRead h)

/-- Settles O8: a pair that can be read is the next instruction, and the step runs that. -/
theorem stepRunsTheDecodedInstruction : Obligations.StepRunsTheDecodedInstruction := by
  unfold Obligations.StepRunsTheDecodedInstruction
  exact fun s p q => step_of_memRead

theorem memRead_append_encode (before after : List U3) (i : Instr) :
    memRead (before ++ encode i ++ after) before.length 2 = some [i.opcode, i.operand] := by
  have hle : before.length + 2 ≤ (before ++ encode i ++ after).length := by
    simp only [List.length_append, length_encode]
    omega
  rw [memRead_of_le hle, List.append_assoc, List.drop_left]
  rfl

/-- The next instruction is the one whose encoding stands at `pc`, whatever stands around it. -/
theorem nextInstr_of_encode {s : State} {before after : List U3} {i : Instr}
    (hprog : s.prog = before ++ encode i ++ after) (hpc : s.pc = before.length) : nextInstr s = some i := by
  have hread : memRead s.prog s.pc 2 = some [i.opcode, i.operand] := by
    rw [hprog, hpc, memRead_append_encode]
  rw [nextInstr_of_memRead hread, decodePair_opcode_operand]

theorem length_encodeProgram (is : List Instr) : (encodeProgram is).length = 2 * is.length := by
  induction is with
  | nil => rfl
  | cons i is ih =>
    rw [encodeProgram_cons, List.length_cons, List.length_cons, List.length_cons, ih]
    omega

/-- The encoding of an instruction of a program stands in the program's encoding, after those of the instructions
before it. -/
theorem encodeProgram_split {is : List Instr} {j : Nat} {i : Instr} (h : is[j]? = some i) :
    encodeProgram is = encodeProgram (is.take j) ++ encode i ++ encodeProgram (is.drop (j + 1)) ∧
      (encodeProgram (is.take j)).length = 2 * j := by
  obtain ⟨hj, rfl⟩ := List.getElem?_eq_some_iff.1 h
  constructor
  · calc encodeProgram is = encodeProgram (is.take j ++ is[j] :: is.drop (j + 1)) := by
          rw [List.getElem_cons_drop, List.take_append_drop]
      _ = _ := by simp only [encodeProgram, List.flatMap_append, List.flatMap_cons, List.append_assoc]
  · rw [length_encodeProgram, List.length_take_of_le (Nat.le_of_lt hj)]

/-- Settles O3: the encoding at `pc` is read whatever stands around it (`nextInstr_of_encode`), and that of the `j`-th
instruction stands after `2 * j` cells (`encodeProgram_split`). -/
theorem encodedInstructionsAreFetched : Obligations.EncodedInstructionsAreFetched := by
  unfold Obligations.EncodedInstructionsAreFetched
  refine ⟨fun s before after i hs hprog hpc => ?_, fun s is j i hs hprog hpc hi => ?_⟩
  · have hnext := nextInstr_of_encode hprog hpc
    exact ⟨hnext, step_of_nextInstr hs hnext⟩
  · obtain ⟨hsplit, hlen⟩ := encodeProgram_split hi
    have hnext := nextInstr_of_encode (hprog.trans hsplit) (hpc.trans hlen.symm)
    exact ⟨hnext, step_of_nextInstr hs hnext⟩

/-! ### The decoder on naturals (R69, R70) -/

theorem decode_of_wide_opcode {p : Nat} (q : Nat) (rest : List Nat) (hp : 7 < p) :
    decode (p :: q :: rest) = .cellRange p := by
  have hp' : Config.maxCell < p := hp
  rw [decode, if_pos hp']

theorem decode_of_le {p q : Nat} (rest : List Nat) (hp : p ≤ 7) (hq : q ≤ 7) :
    decode (p :: q :: rest) = .instr (decodePair (BitVec.ofNat 3 p) (BitVec.ofNat 3 q)) rest := by
  have hp' : ¬ Config.maxCell < p := Nat.not_lt.mpr hp
  have hq' : ¬ Config.maxCell < q := Nat.not_lt.mpr hq
  rw [decode, if_neg hp', if_neg hq']

/-- Two cells are never truncated: each of the three answers on them names a cell or an instruction. -/
theorem decode_eq_truncated_iff (cells : List Nat) : decode cells = .truncated ↔ cells.length < 2 := by
  match cells with
  | [] => simp [decode]
  | [_] => simp [decode]
  | p :: q :: rest =>
    have hne : decode (p :: q :: rest) ≠ .truncated := by
      rcases Nat.lt_or_ge 7 p with hp | hp
      · simp [decode_of_wide_opcode q rest hp]
      · rcases Nat.lt_or_ge 7 q with hq | hq
        · simp [decode_of_wide_operand rest hp hq]
        · simp [decode_of_le rest hp hq]
    simp [hne]

/-- Settles O7: one clause for each branch of the decoder. -/
theorem wideDecoderRejectsByName : Obligations.WideDecoderRejectsByName := by
  unfold Obligations.WideDecoderRejectsByName
  exact ⟨decode_eq_truncated_iff, fun p q rest =>
    ⟨decode_of_wide_opcode q rest, decode_of_wide_operand rest, decode_of_le rest⟩⟩

/-! ### The placed word (log entry 10) -/

/-- A word that decodes has its opcode cell in range, and its operand cell always is. -/
theorem decodePair_of_decodeTableWord {nbits w : Nat} {i : Instr} (h : decodeTableWord nbits w = some i) :
    decodePair (BitVec.ofNat 3 (w % 2 ^ nbits / 8)) (BitVec.ofNat 3 (w % 2 ^ nbits)) = i := by
  rw [decodeTableWord, tableCells] at h
  generalize w % 2 ^ nbits = v at h ⊢
  have hoperand : v % 8 ≤ 7 := by omega
  rcases Nat.lt_or_ge 7 (v / 8) with hv | hv
  · rw [decode_of_wide_opcode _ _ hv] at h
    cases h
  · rw [decode_of_le _ hv hoperand] at h
    have hlow : BitVec.ofNat 3 (v % 8) = BitVec.ofNat 3 v := BitVec.eq_of_toNat_eq (by simp)
    rw [hlow] at h
    exact Option.some.inj h

/-- Settles O9: the placed pair is the one that is read back at `pc` (`memRead_placePair`). -/
theorem placedWordIsTheNextInstruction : Obligations.PlacedWordIsTheNextInstruction := by
  unfold Obligations.PlacedWordIsTheNextInstruction
  intro s nbits w i h
  have hread : memRead (s.withFetchWord nbits w).prog (s.withFetchWord nbits w).pc 2 =
      some [BitVec.ofNat 3 (w % 2 ^ nbits / 8), BitVec.ofNat 3 (w % 2 ^ nbits)] := memRead_placePair _ _ _ _
  have hstep := step_of_memRead (s := s.withFetchWord nbits w) rfl hread
  rw [decodePair_of_decodeTableWord h] at hstep
  exact ⟨hstep, rfl, rfl, rfl, rfl, rfl⟩

/-! ### The opcode map as a table of words (R62, R68) -/

theorem mask_of_mem_opcodeTable : ∀ row ∈ opcodeTable, row.mask = 0b111000 := by decide

/-- A row is hit or not by the opcode alone. -/
theorem hits_encodeWord {row : OpcodeRow} (hrow : row ∈ opcodeTable) (i : Instr) :
    row.hits (encodeWord i) = (i.opcode ++ 0#3 == row.pattern) := by
  rw [OpcodeRow.hits, mask_of_mem_opcodeTable row hrow, encodeWord_and_opcodeMask]

theorem filter_hits_encodeWord (i : Instr) :
    (opcodeTable.filter fun row => row.hits (encodeWord i)).map (fun row => (row.mnemonic, row.kind)) =
      [(i.mnemonic, i.kind)] := by
  rw [List.filter_congr fun row hrow => hits_encodeWord hrow i]
  cases i <;>
    · simp only [Instr.opcode, Instr.mnemonic, Instr.kind]
      decide

/-- Settles O4: every word is an encoding (`encodeWord_decodeWord`), and of the eight opcodes each stands in one row. -/
theorem opcodeMapIsTotalAndUnambiguous : Obligations.OpcodeMapIsTotalAndUnambiguous := by
  unfold Obligations.OpcodeMapIsTotalAndUnambiguous
  refine ⟨fun w => ?_, mask_of_mem_opcodeTable, rfl⟩
  have h := filter_hits_encodeWord (decodeWord w)
  rwa [encodeWord_decodeWord] at h

/-- Settles O5: each word is evaluated. -/
theorem vectorWordsDecode : Obligations.VectorWordsDecode := by
  unfold Obligations.VectorWordsDecode
  decide

/-- Settles O6: each of the 64 words is evaluated. -/
theorem exactlyFiveWordsAreIllegal : Obligations.ExactlyFiveWordsAreIllegal := by
  unfold Obligations.ExactlyFiveWordsAreIllegal
  decide

end Sys2Proof.Machine

/-! PROOFS. Faults and invariants: what raises a fault (60_exceptions.md), and what every step keeps (10_state.md R25,
R27, R35, R36; 30_encoding.md R74). -/

namespace Sys2Proof.Machine

/-! ### What an instruction raises, and what it writes -/

/-- The condition of each cause in the 3-bit hardware (60_exceptions.md R141 to R143). -/
def RaisesFault (i : Instr) (s : State) (cause : FaultCause) : Prop :=
  (cause = .invalidCombo ∧ i.kind = .combo ∧ i.operand = 7) ∨
  (cause = .negativeExponent ∧ (∃ o, i = .adv o ∨ i = .bdv o ∨ i = .cdv o) ∧
    ∃ k, combo i.operand s = some k ∧ k.toInt < 0)

/-- Everything an instruction of combo kind can do. -/
theorem comboEffect_cases (o : U3) (s : State) (k : Word → Effect) :
    (o = 7 ∧ comboEffect o s k = .fault .invalidCombo) ∨ ∃ v, combo o s = some v ∧ comboEffect o s k = k v := by
  cases h : combo o s with
  | none => exact .inl ⟨(combo_eq_none_iff o s).1 h, by rw [comboEffect, h]⟩
  | some v => exact .inr ⟨v, rfl, by rw [comboEffect, h]⟩

/-- Everything a division can do with its resolved exponent. -/
theorem quotientEffect_cases (dest : Reg) (a k : Word) :
    (k.toInt < 0 ∧ quotientEffect dest a k = .fault .negativeExponent) ∨
    (0 ≤ k.toInt ∧ quotientEffect dest a k = .write dest (pow2div a k.toNat)) := by
  rcases Int.lt_or_le k.toInt 0 with hk | hk
  · exact .inl ⟨hk, if_pos hk⟩
  · exact .inr ⟨hk, if_neg (Int.not_lt.mpr hk)⟩

/-- An instruction of combo kind raises InvalidCombo, or what it raises with its resolved operand. -/
theorem raisesFault_of_comboEffect {i : Instr} {s : State} {cause : FaultCause} {k : Word → Effect}
    (hkind : i.kind = .combo) (h : comboEffect i.operand s k = .fault cause)
    (hk : ∀ v, combo i.operand s = some v → k v = .fault cause → RaisesFault i s cause) : RaisesFault i s cause := by
  rcases comboEffect_cases i.operand s k with ⟨h7, e⟩ | ⟨v, hv, e⟩
  · cases e.symm.trans h
    exact .inl ⟨rfl, hkind, h7⟩
  · exact hk v hv (e.symm.trans h)

/-- A fault has the cause of its condition. -/
theorem raisesFault_of_effectOf {i : Instr} {s : State} {cause : FaultCause} (h : effectOf i s = .fault cause) :
    RaisesFault i s cause := by
  have division (dest : Reg) (hi : ∃ o, i = .adv o ∨ i = .bdv o ∨ i = .cdv o) (k : Word)
      (hk : combo i.operand s = some k) (h : quotientEffect dest s.a k = .fault cause) : RaisesFault i s cause := by
    rcases quotientEffect_cases dest s.a k with ⟨hneg, e⟩ | ⟨_, e⟩
    · cases e.symm.trans h
      exact .inr ⟨rfl, hi, k, hk, hneg⟩
    · cases e.symm.trans h
  cases i with
  | adv o => exact raisesFault_of_comboEffect rfl h (division .a ⟨o, .inl rfl⟩)
  | bdv o => exact raisesFault_of_comboEffect rfl h (division .b ⟨o, .inr (.inl rfl)⟩)
  | cdv o => exact raisesFault_of_comboEffect rfl h (division .c ⟨o, .inr (.inr rfl)⟩)
  | bst o => exact raisesFault_of_comboEffect rfl h fun _ _ => nofun
  | out o => exact raisesFault_of_comboEffect rfl h fun _ _ => nofun
  | bxl o => cases h
  | bxc o => cases h
  | jnz o => cases hj : jumpTaken s <;> simp [effectOf, hj] at h

theorem RaisesFault.ne_cellRange {i : Instr} {s : State} {cause : FaultCause} (h : RaisesFault i s cause) :
    cause ≠ .cellRange := by
  obtain ⟨rfl, _⟩ | ⟨rfl, _⟩ := h
  · nofun
  · nofun

theorem wellFormed_of_combo {i : Instr} (h : i.kind = .combo) : i.wellFormed = comboLegal i.operand := by
  cases i with
  | adv o => rfl
  | bst o => rfl
  | out o => rfl
  | bdv o => rfl
  | cdv o => rfl
  | bxl o => cases h
  | jnz o => cases h
  | bxc o => cases h

/-- InvalidCombo is raised by ill-formed instructions only (30_encoding.md R66). -/
theorem RaisesFault.wellFormed_eq_false {i : Instr} {s : State} (h : RaisesFault i s .invalidCombo) :
    i.wellFormed = false := by
  obtain ⟨_, hkind, hoperand⟩ | ⟨hcause, _⟩ := h
  · rw [wellFormed_of_combo hkind, hoperand]
    rfl
  · cases hcause

/-- The values an instruction writes: a quotient of A, or to B an exclusive OR of B or a residue. -/
theorem effectOf_write_cases {i : Instr} {s : State} {r : Reg} {v : Word} (h : effectOf i s = .write r v) :
    (∃ k, v = pow2div s.a k) ∨
    (r = .b ∧ ∃ w, (w = s.c ∨ ∃ o, w = lit o) ∧ v = xor64 s.b w) ∨
    (r = .b ∧ ∃ w, v = (mod8 w).setWidth 64) := by
  have division (dest : Reg) (o : U3) (h : comboEffect o s (quotientEffect dest s.a) = .write r v) :
      ∃ k, v = pow2div s.a k := by
    rcases comboEffect_cases o s (quotientEffect dest s.a) with ⟨_, e⟩ | ⟨k, _, e⟩
    · cases e.symm.trans h
    · rcases quotientEffect_cases dest s.a k with ⟨_, e'⟩ | ⟨_, e'⟩
      · cases (e.trans e').symm.trans h
      · cases (e.trans e').symm.trans h
        exact ⟨_, rfl⟩
  cases i with
  | adv o => exact .inl (division .a o h)
  | bdv o => exact .inl (division .b o h)
  | cdv o => exact .inl (division .c o h)
  | bxl o => cases h; exact .inr (.inl ⟨rfl, lit o, .inr ⟨o, rfl⟩, rfl⟩)
  | bxc o => cases h; exact .inr (.inl ⟨rfl, s.c, .inl rfl, rfl⟩)
  | bst o =>
    rcases comboEffect_cases o s fun v => .write .b ((mod8 v).setWidth 64) with ⟨_, e⟩ | ⟨w, _, e⟩
    · cases e.symm.trans h
    · cases e.symm.trans h
      exact .inr (.inr ⟨rfl, w, rfl⟩)
  | out o =>
    rcases comboEffect_cases o s fun v => .append (mod8 v) with ⟨_, e⟩ | ⟨w, _, e⟩
    · cases e.symm.trans h
    · cases e.symm.trans h
  | jnz o => cases hj : jumpTaken s <;> simp [effectOf, hj] at h

/-! ### Fault entry (60_exceptions.md R146, R147) -/

/-- Only fault entry sets FSR. -/
theorem eq_fault_of_apply_fsr {e : Effect} {s : State} {f : FaultRecord} (hs : s.fsr = none)
    (hf : (e.apply s).fsr = some f) : e = .fault f.cause := by
  cases e with
  | fault cause =>
    obtain rfl : FaultRecord.mk cause s.pc = f := Option.some.inj hf
    rfl
  | write r v => simp [Effect.apply, hs] at hf
  | append v => simp [Effect.apply, hs] at hf
  | jump target => simp [Effect.apply, hs] at hf
  | skip => simp [Effect.apply, hs] at hf

/-- A step that leaves FSR set ran an instruction that raised the fault. -/
theorem step_fsr_some {s t : State} {f : FaultRecord} (h : step s = .next t) (hf : t.fsr = some f) :
    ∃ i, nextInstr s = some i ∧ RaisesFault i s f.cause := by
  obtain ⟨hs, ⟨_, rfl⟩ | ⟨i, hi, hexec⟩⟩ := step_cases h
  · rw [hs] at hf; cases hf
  · obtain rfl := exec_eq_next_iff.1 hexec
    exact ⟨i, hi, raisesFault_of_effectOf (eq_fault_of_apply_fsr hs hf)⟩

/-- The report of a fault comes with the step that raises it. -/
theorem cycle_of_step_fsr_some {s t : State} {f : FaultRecord} (h : step s = .next t) (hf : t.fsr = some f) :
    cycle s = (.faulted f.cause, t) := by
  obtain ⟨i, hi, _⟩ := step_fsr_some h hf
  obtain ⟨hs, _⟩ := step_cases h
  have hh : halted s = false := by
    by_contra hh
    rw [nextInstr_of_halted (by simpa using hh)] at hi
    cases hi
  simp [cycle, hs, hh, stepState_of_next h, hf]

/-- Settles O43: the state is that of fault entry (`step_eq_enterFault`), and the cause that of its condition
(`step_fsr_some`), which is never that of CellRange. -/
theorem faultEntryIsPrecise : Obligations.FaultEntryIsPrecise := by
  unfold Obligations.FaultEntryIsPrecise
  intro s t f h _ hf
  obtain ⟨i, hi, hraises⟩ := step_fsr_some h hf
  have ht : t = s.enterFault f.cause := step_eq_enterFault h hf
  have hfpc : FaultRecord.mk f.cause s.pc = f := by
    rw [ht] at hf
    exact Option.some.inj hf
  have hstate : s.enterFault f.cause = { s with fsr := some f } := congrArg (fun g => { s with fsr := some g }) hfpc
  exact ⟨ht.trans hstate, (congrArg FaultRecord.fpc hfpc).symm, lt_of_nextInstr hi, cycle_of_step_fsr_some h hf, i, hi,
    hraises⟩

/-! ### `pc` is bounded and FSR is consistent (R25, R27) -/

theorem fsrConsistent_of_none {s : State} (h : s.fsr = none) : FsrConsistent s := by
  simp only [FsrConsistent, h]

theorem fsrConsistent_enterFault {s : State} {cause : FaultCause} (hpc : s.pc + 1 < s.len)
    (hcause : cause ≠ .cellRange) : FsrConsistent (s.enterFault cause) :=
  ⟨rfl, hpc, hcause⟩

/-- An instruction advances from `pc <= LEN - 2` or jumps to a literal; a fault leaves `pc`. -/
theorem exec_pcBounded {i : Instr} {s t : State} (h : exec i s = .next t) (hi : nextInstr s = some i) :
    PcBounded t := by
  have hlt : s.pc + 1 < s.prog.length := lt_of_nextInstr hi
  rcases exec_cases i s with ⟨_, e⟩ | ⟨_, _, e⟩ | ⟨_, _, _, _, e⟩ | ⟨_, _, _, _, e⟩ | ⟨o, _, _, e⟩ | ⟨_, _, _, e⟩
  case inr.inr.inr.inr.inl =>
    cases e.symm.trans h
    exact Nat.le_trans (Nat.le_of_lt_succ o.isLt) (Nat.le_max_right _ _)
  all_goals
    cases e.symm.trans h
    refine Nat.le_trans ?_ (Nat.le_max_left _ _)
    simp
    omega

/-- Settles O44: `pc` is 0 and FSR is not valid. -/
theorem constructedStateIsReasonable : Obligations.ConstructedStateIsReasonable := by
  unfold Obligations.ConstructedStateIsReasonable
  have construct_reasonable (p : List U3) (x y z : Word) : Reasonable (State.construct p x y z) :=
    ⟨Nat.zero_le _, fsrConsistent_of_none (construct_fsr p x y z)⟩
  exact ⟨construct_reasonable, construct_reasonable [] 0 0 0⟩

/-- Settles O45: `pc` stays bounded in every instruction (`exec_pcBounded`), and FSR is set by fault entry only, from
a `pc` at which an instruction could be read. -/
theorem stepKeepsReasonable : Obligations.StepKeepsReasonable := by
  unfold Obligations.StepKeepsReasonable
  intro s t h hreasonable
  obtain ⟨_, ⟨_, rfl⟩ | ⟨i, hi, hexec⟩⟩ := step_cases h
  · exact hreasonable
  refine ⟨exec_pcBounded hexec hi, ?_⟩
  cases hf : t.fsr with
  | none => exact fsrConsistent_of_none hf
  | some f =>
    obtain ⟨_, _, hraises⟩ := step_fsr_some h hf
    rw [step_eq_enterFault h hf]
    exact fsrConsistent_enterFault (lt_of_nextInstr hi) hraises.ne_cellRange

/-! ### Non-negative registers (R35) -/

theorem mod8_setWidth_nonneg (w : Word) : 0 ≤ ((mod8 w).setWidth 64).toInt := (lit_toInt_bounds (mod8 w)).1

/-- An effect keeps the registers non-negative when the value it writes, if any, is. -/
theorem NonNegative.apply {e : Effect} {s : State} (hs : NonNegative s)
    (he : ∀ r v, e = .write r v → 0 ≤ v.toInt) : NonNegative (e.apply s) := by
  cases e with
  | write r v =>
    obtain ⟨ha, hb, hc⟩ := hs
    have hv : 0 ≤ v.toInt := he r v rfl
    cases r with
    | a => exact ⟨hv, hb, hc⟩
    | b => exact ⟨ha, hv, hc⟩
    | c => exact ⟨ha, hb, hv⟩
  | fault cause => exact hs
  | append v => exact hs
  | jump target => exact hs
  | skip => exact hs

/-- What an instruction writes from non-negative registers is not negative. -/
theorem effectOf_write_nonneg {i : Instr} {s : State} {r : Reg} {v : Word} (hs : NonNegative s)
    (h : effectOf i s = .write r v) : 0 ≤ v.toInt := by
  obtain ⟨ha, hb, hc⟩ := hs
  obtain ⟨k, rfl⟩ | ⟨_, w, rfl | ⟨o, rfl⟩, rfl⟩ | ⟨_, w, rfl⟩ := effectOf_write_cases h
  · exact pow2div_nonneg ha k
  · exact xor64_nonneg hb hc
  · exact xor64_nonneg hb (lit_toInt_bounds o).1
  · exact mod8_setWidth_nonneg w

theorem step_nonNegative {s t : State} (h : step s = .next t) (hs : NonNegative s) : NonNegative t := by
  obtain ⟨_, ⟨_, rfl⟩ | ⟨i, _, hexec⟩⟩ := step_cases h
  · exact hs
  · obtain rfl := exec_eq_next_iff.1 hexec
    exact hs.apply fun r v => effectOf_write_nonneg hs

/-- From non-negative registers no operand resolves to a negative exponent. -/
theorem RaisesFault.eq_invalidCombo {i : Instr} {s : State} {cause : FaultCause} (h : RaisesFault i s cause)
    (hs : NonNegative s) : cause = .invalidCombo := by
  obtain ⟨hcause, _⟩ | ⟨_, _, k, hk, hneg⟩ := h
  · exact hcause
  · obtain ⟨ha, hb, hc⟩ := hs
    exact absurd (combo_nonneg hk ha hb hc) (Int.not_le.mpr hneg)

theorem step_of_cycle_stepped {s t : State} (h : cycle s = (.stepped, t)) : step s = .next t := by
  obtain ⟨hs, _, i, hi, hexec⟩ := cycle_stepped h
  exact (step_of_nextInstr hs hi).trans hexec

/-- What every step keeps, every run keeps. -/
theorem stepsFor_keeps_of_step {P : State → Prop} (hstep : ∀ s t, step s = .next t → P s → P t) {n : Nat} {s t : State}
    (h : stepsFor n s = some t) (hs : P s) : P t :=
  stepsFor_keeps (fun u v e => hstep u v (step_of_cycle_stepped e)) n s t h hs

/-- Settles O46: whatever an instruction writes from non-negative registers is non-negative (`effectOf_write_nonneg`),
and every exponent it resolves is. -/
theorem nonNegativityIsKept : Obligations.NonNegativityIsKept := by
  unfold Obligations.NonNegativityIsKept
  refine ⟨fun s t h hs => ⟨step_nonNegative h hs, fun f hf hcause => ?_⟩,
    fun n s t => stepsFor_keeps_of_step fun u v => step_nonNegative⟩
  obtain ⟨i, _, hraises⟩ := step_fsr_some h hf
  cases hcause.symm.trans (hraises.eq_invalidCombo hs)

/-! ### The magnitude of A (R36) -/

/-- An instruction leaves A or makes it a quotient of A. -/
theorem exec_natAbs_a_le {i : Instr} {s t : State} (h : exec i s = .next t) :
    t.a.toInt.natAbs ≤ s.a.toInt.natAbs := by
  obtain rfl := exec_eq_next_iff.1 h
  cases he : effectOf i s with
  | write r v =>
    cases r with
    | a =>
      obtain ⟨k, rfl⟩ | ⟨hr, _⟩ | ⟨hr, _⟩ := effectOf_write_cases he
      · show (pow2div s.a k).toInt.natAbs ≤ _
        rw [pow2div_toInt]
        exact natAbs_tdiv_le _ _
      · cases hr
      · cases hr
    | b => exact Nat.le_refl _
    | c => exact Nat.le_refl _
  | fault cause => exact Nat.le_refl _
  | append v => exact Nat.le_refl _
  | jump target => exact Nat.le_refl _
  | skip => exact Nat.le_refl _

theorem step_natAbs_a_le {s t : State} (h : step s = .next t) : t.a.toInt.natAbs ≤ s.a.toInt.natAbs := by
  obtain ⟨_, ⟨_, rfl⟩ | ⟨i, _, hexec⟩⟩ := step_cases h
  · exact Nat.le_refl _
  · exact exec_natAbs_a_le hexec

/-- Settles O47: each step keeps the bound (`step_natAbs_a_le`), and only 0 has magnitude 0. -/
theorem magnitudeOfANeverGrows : Obligations.MagnitudeOfANeverGrows := by
  unfold Obligations.MagnitudeOfANeverGrows
  intro n s t h
  have hle : t.a.toInt.natAbs ≤ s.a.toInt.natAbs :=
    stepsFor_keeps_of_step (P := fun u => u.a.toInt.natAbs ≤ s.a.toInt.natAbs)
      (fun u v hv hu => Nat.le_trans (step_natAbs_a_le hv) hu) h (Nat.le_refl _)
  refine ⟨hle, fun hs => (toInt_eq_zero_iff t.a).1 ?_⟩
  rw [(toInt_eq_zero_iff s.a).2 hs] at hle
  exact Int.natAbs_eq_zero.1 (Nat.le_zero.1 hle)

/-! ### Statically well-formed programs (30_encoding.md R74) -/

/-- The static condition holds of every pair of neighbouring cells. -/
theorem decodePair_wellFormed_of_static : ∀ {prog : List U3} {n : Nat} (hn : n + 1 < prog.length),
    staticallyWellFormed prog = true → (decodePair prog[n] prog[n + 1]).wellFormed = true
  | p :: q :: rest, 0, _, h => by
    obtain ⟨hpair, _⟩ := (Bool.and_eq_true _ _).mp h
    exact hpair
  | p :: q :: rest, n + 1, hn, h => by
    obtain ⟨_, hrest⟩ := (Bool.and_eq_true _ _).mp h
    exact decodePair_wellFormed_of_static (prog := q :: rest) (Nat.lt_of_succ_lt_succ hn) hrest
  | [_], n, hn, _ => by simp at hn
  | [], n, hn, _ => by simp at hn

theorem nextInstr_wellFormed {s : State} {i : Instr} (hs : staticallyWellFormed s.prog = true)
    (hi : nextInstr s = some i) : i.wellFormed = true := by
  have hlt := lt_of_nextInstr hi
  obtain rfl := Option.some.inj ((nextInstr_of_lt hlt).symm.trans hi)
  exact decodePair_wellFormed_of_static hlt hs

/-- No step of a statically well-formed program raises InvalidCombo. -/
theorem step_cause_ne_invalidCombo {s t : State} {f : FaultRecord} (hs : staticallyWellFormed s.prog = true)
    (h : step s = .next t) (hf : t.fsr = some f) : f.cause ≠ .invalidCombo := by
  intro hcause
  obtain ⟨i, hi, hraises⟩ := step_fsr_some h hf
  rw [hcause] at hraises
  cases hraises.wellFormed_eq_false.symm.trans (nextInstr_wellFormed hs hi)

/-- Every step keeps a state in which no fault can be raised. -/
theorem step_faultFree {s t : State} (h : step s = .next t) (hs : FaultFree s) : FaultFree t := by
  obtain ⟨hstatic, hnonneg, _⟩ := hs
  refine ⟨(step_prog h).symm ▸ hstatic, step_nonNegative h hnonneg, ?_⟩
  cases hf : t.fsr with
  | none => rfl
  | some f =>
    obtain ⟨i, _, hraises⟩ := step_fsr_some h hf
    exact absurd (hraises.eq_invalidCombo hnonneg) (step_cause_ne_invalidCombo hstatic h hf)

/-- Settles O58: the program is not written, the registers stay non-negative, and of the two causes the program
excludes InvalidCombo and the registers NegativeExponent. -/
theorem stepKeepsFaultFree : Obligations.StepKeepsFaultFree := by
  unfold Obligations.StepKeepsFaultFree
  exact fun s t => step_faultFree

/-- A report `Faulted` on an unfaulted state is that of the step that raises the fault. -/
theorem cycle_faulted {s t : State} {cause : FaultCause} (hs : s.fsr = none) (h : cycle s = (.faulted cause, t)) :
    step s = .next t ∧ ∃ f, t.fsr = some f ∧ f.cause = cause := by
  rcases cycle_cases s with ⟨f, hf, _⟩ | ⟨_, _, e⟩ | ⟨_, _, u, f, hstep, hf, e⟩ | ⟨_, _, _, _, _, e⟩
  · rw [hs] at hf; cases hf
  · cases e.symm.trans h
  · cases e.symm.trans h
    exact ⟨hstep, f, hf, rfl⟩
  · cases e.symm.trans h

theorem stepsFor_fsr {n : Nat} {s t : State} (h : stepsFor n s = some t) (hs : s.fsr = none) : t.fsr = none := by
  refine stepsFor_keeps (P := fun u => u.fsr = none) (fun u v e _ => ?_) n s t h hs
  obtain ⟨_, hv, _⟩ := cycle_stepped e
  exact hv

/-- Settles O51: every state of the run has the program (`stepsFor_prog`) and no fault, so the step that would raise
InvalidCombo is excluded; with non-negative registers every state is fault-free (`step_faultFree`). -/
theorem wellFormedProgramsDoNotFault : Obligations.WellFormedProgramsDoNotFault := by
  unfold Obligations.WellFormedProgramsDoNotFault
  intro s hstatic hs
  refine ⟨fun n t u h hfault => ?_, fun hnonneg t ⟨n, u, cause, h, hfault⟩ => ?_⟩
  · obtain ⟨hstep, f, hf, hcause⟩ := cycle_faulted (stepsFor_fsr h hs) hfault
    exact step_cause_ne_invalidCombo ((stepsFor_prog h).symm ▸ hstatic) hstep hf hcause
  · have hu : FaultFree u := stepsFor_keeps_of_step (fun _ _ => step_faultFree) h ⟨hstatic, hnonneg, hs⟩
    obtain ⟨hstep, f, hf, _⟩ := cycle_faulted (stepsFor_fsr h hs) hfault
    obtain ⟨_, _, ht⟩ := step_faultFree hstep hu
    cases ht.symm.trans hf

end Sys2Proof.Machine

/-! PROOFS. Division by a power of two and the residue modulo 8 (00_scope.md section 7), and the instructions that
compute them (41_division.md; `bst`, `out`). -/

namespace Sys2Proof.Machine

/-! ### The exact quotient (R9) -/

theorem pow2div_zero (a : Word) : pow2div a 0 = a := by
  apply BitVec.eq_of_toInt_eq
  rw [pow2div_toInt, pow_zero, Int.tdiv_one]

theorem pow2div_of_le {k : Nat} (a : Word) (h : 64 ≤ k) : pow2div a k = 0 := if_pos h

/-- Of all dividends only MIN has the magnitude of the divisor `2^63`. -/
theorem toInt_tdiv_two_pow_63 (a : Word) : a.toInt.tdiv (2 ^ 63) = if a.toInt = Config.minWord then -1 else 0 := by
  obtain ⟨hmin, hmax⟩ := word_toInt_bounds a
  split
  case isTrue h => rw [h]; decide
  case isFalse h =>
    have hne : a.toInt ≠ -(2 ^ 63) := h
    rw [← Int.natAbs_eq_zero, Int.natAbs_tdiv]
    exact Nat.div_eq_of_lt (by norm_num at *; omega)

/-- Settles O11: the quotient is `pow2div_toInt`, and the rest are facts about that quotient. -/
theorem pow2divIsTheExactQuotient : Obligations.Pow2divIsTheExactQuotient := by
  unfold Obligations.Pow2divIsTheExactQuotient
  intro a k
  refine ⟨?_, ?_, pow2div_zero a, ?_, pow2div_of_le a⟩
  · rw [pow2div_toInt, tdiv_eq_int_tdiv]
  · rw [pow2div_toInt]
    exact natAbs_tdiv_le _ _
  · rintro rfl
    rw [pow2div_toInt, toInt_tdiv_two_pow_63]

/-! ### Shifts (R9, R106) -/

theorem toInt_sshiftRight_eq_ediv (a : Word) (k : Nat) : (a.sshiftRight k).toInt = a.toInt / 2 ^ k := by
  rw [BitVec.toInt_sshiftRight, Int.shiftRight_eq_div_pow]
  norm_cast

/-- The quotient rounded toward zero is the floor of the biased dividend. -/
theorem tdiv_eq_ediv_biased (a : Int) {d : Int} (hd : 0 < d) :
    a.tdiv d = (a + if a < 0 then d - 1 else 0) / d := by
  split
  case isTrue ha =>
    rw [← tdiv_eq_int_tdiv, tdiv_of_neg d ha]
    symm
    rw [Int.ediv_eq_iff_of_pos hd]
    have hdiv := Int.mul_ediv_add_emod (-a) d
    have hnonneg := Int.emod_nonneg (-a) (Int.ne_of_gt hd)
    have hlt := Int.emod_lt_of_pos (-a) hd
    have hneg : -((-a) / d) * d = -(d * ((-a) / d)) := by ring
    omega
  case isFalse ha => rw [Int.add_zero, Int.tdiv_eq_ediv_of_nonneg (Int.not_lt.mp ha)]

/-- The bias is added to a negative dividend only, and is less than the magnitude of MIN. -/
theorem add_bias_bounds (a : Word) {k : Nat} (hk : k ≤ 63) :
    -(2 ^ 63) ≤ a.toInt + bias a k ∧ a.toInt + bias a k ≤ 2 ^ 63 - 1 := by
  obtain ⟨hmin, hmax⟩ := word_toInt_bounds a
  have hle : (2 : Int) ^ k ≤ 2 ^ 63 := pow_le_pow_right₀ (by decide) hk
  have hpos := two_pow_pos k
  unfold bias
  split <;> omega

theorem pow2divByShift_eq_pow2div (a : Word) {k : Nat} (hk : k ≤ 63) : pow2divByShift a k = pow2div a k := by
  obtain ⟨hmin, hmax⟩ := add_bias_bounds a hk
  have hsum : a + BitVec.ofInt 64 (bias a k) = BitVec.ofInt 64 (a.toInt + bias a k) := by
    rw [BitVec.ofInt_add, BitVec.ofInt_toInt]
  apply BitVec.eq_of_toInt_eq
  calc (pow2divByShift a k).toInt = (a.toInt + bias a k) / 2 ^ k := by
        rw [pow2divByShift, toInt_sshiftRight_eq_ediv, hsum, toInt_ofInt_of_bounds hmin hmax]
    _ = a.toInt.tdiv (2 ^ k) := (tdiv_eq_ediv_biased a.toInt (two_pow_pos k)).symm
    _ = (pow2div a k).toInt := (pow2div_toInt a k).symm

/-- Settles O12: the shift is a floor (`toInt_sshiftRight_eq_ediv`), and the bias turns the floor into the quotient
(`tdiv_eq_ediv_biased`). -/
theorem biasedShiftIsPow2div : Obligations.BiasedShiftIsPow2div := by
  unfold Obligations.BiasedShiftIsPow2div
  intro a k hk
  exact ⟨pow2divByShift_eq_pow2div a hk, add_bias_bounds a hk⟩

/-- The floor of a register value by `2^k` does not change from `k = 63` on: it is 0 or -1. -/
theorem ediv_two_pow_min_63 (a : Word) (k : Nat) : a.toInt / 2 ^ min k 63 = a.toInt / 2 ^ k := by
  rcases Nat.le_total k 63 with hk | hk
  · rw [Nat.min_eq_left hk]
  · have hle : (2 : Int) ^ 63 ≤ 2 ^ k := pow_le_pow_right₀ (by decide) hk
    obtain ⟨hmin, hmax⟩ := word_toInt_bounds a
    rw [Nat.min_eq_right hk]
    rcases Int.lt_or_le a.toInt 0 with ha | ha
    · rw [Int.ediv_eq_neg_one_of_neg_of_le ha (by omega), Int.ediv_eq_neg_one_of_neg_of_le ha (by omega)]
    · rw [Int.ediv_eq_zero_of_lt ha (by omega), Int.ediv_eq_zero_of_lt ha (by omega)]

/-- The plain arithmetic shift by `min(k, 63)` is the floor for every `k`. -/
theorem toInt_sshiftRight_min_63 (a : Word) (k : Nat) : (a.sshiftRight (min k 63)).toInt = a.toInt / 2 ^ k := by
  rw [toInt_sshiftRight_eq_ediv, ediv_two_pow_min_63]

/-- The quotient is the floor, or one more for a negative dividend that is no multiple. -/
theorem pow2div_toInt_eq_ediv_add (a : Word) (k : Nat) :
    (pow2div a k).toInt = a.toInt / 2 ^ k + if 0 ≤ a.toInt ∨ (2 : Int) ^ k ∣ a.toInt then 0 else 1 := by
  rw [pow2div_toInt, Int.tdiv_eq_ediv, Int.sign_eq_one_of_pos (two_pow_pos k)]

theorem sshiftRight_ne_pow2div_iff (a : Word) (k : Nat) :
    a.sshiftRight (min k 63) ≠ pow2div a k ↔ a.toInt < 0 ∧ ¬ (2 : Int) ^ k ∣ a.toInt := by
  rw [Ne, ← BitVec.toInt_inj, toInt_sshiftRight_min_63, pow2div_toInt_eq_ediv_add, ← Int.not_le, ← not_or]
  split <;> simp [*]

/-- Settles O13: quotient and floor differ by one exactly on negative dividends that are no multiple
(`pow2div_toInt_eq_ediv_add`); without a sign bit the two plain shifts are the same. -/
theorem plainShiftDivergesOnNegatives : Obligations.PlainShiftDivergesOnNegatives := by
  unfold Obligations.PlainShiftDivergesOnNegatives
  intro a k
  refine ⟨fun ha => ?_, fun _ => pow2divByShift_eq_pow2div a, sshiftRight_ne_pow2div_iff a k, fun ha hdvd => ?_⟩
  · have harith : a.sshiftRight (min k 63) = pow2div a k := by
      by_contra hne
      obtain ⟨hneg, _⟩ := (sshiftRight_ne_pow2div_iff a k).1 hne
      omega
    have hmsb : a.msb = false := by simpa [BitVec.msb_eq_toInt] using ha
    exact ⟨harith, (BitVec.sshiftRight_eq_of_msb_false hmsb).symm.trans harith⟩
  · rw [pow2div_toInt_eq_ediv_add, if_neg (not_or.2 ⟨Int.not_le.mpr ha, hdvd⟩)]

/-! ### The division family (41_division.md) -/

theorem toNat_of_toInt_nonneg {k : Word} (hk : 0 ≤ k.toInt) : k.toInt.toNat = k.toNat := by
  have hmsb : k.msb = false := by simpa [BitVec.msb_eq_toInt] using hk
  rw [BitVec.toInt_eq_toNat_of_msb hmsb, Int.toNat_natCast]

/-- What the three divisions write (R100). -/
theorem divideInto_eq_pow2div (dest : Reg) {o : U3} {s : State} {k : Word} (h : combo o s = some k)
    (hk : 0 ≤ k.toInt) :
    divideInto dest o s = .next ((s.setReg dest (pow2div s.a k.toInt.toNat)).advance) := by
  rw [divideInto_of_nonneg dest h hk, toNat_of_toInt_nonneg hk]

/-- Settles O19: the common equation of the divisions, into A. -/
theorem advDividesA : Obligations.AdvDividesA := by
  unfold Obligations.AdvDividesA
  exact fun o s k h hk => ⟨_, divideInto_eq_pow2div .a h hk, pow2div_toInt _ _⟩

/-- Settles O20: the common equation of the divisions, into B. -/
theorem bdvDividesAIntoB : Obligations.BdvDividesAIntoB := by
  unfold Obligations.BdvDividesAIntoB
  exact fun o s k h hk => ⟨_, divideInto_eq_pow2div .b h hk, pow2div_toInt _ _⟩

/-- Settles O21: the common equation of the divisions, into C. -/
theorem cdvDividesAIntoC : Obligations.CdvDividesAIntoC := by
  unfold Obligations.CdvDividesAIntoC
  exact fun o s k h hk => ⟨_, divideInto_eq_pow2div .c h hk, pow2div_toInt _ _⟩

/-- Settles O22: the common fault of the divisions. -/
theorem negativeExponentIsAFault : Obligations.NegativeExponentIsAFault := by
  unfold Obligations.NegativeExponentIsAFault
  exact fun o s k h hk => ⟨divideInto_of_neg .a h hk, divideInto_of_neg .b h hk, divideInto_of_neg .c h hk⟩

theorem divideInto_seven (dest : Reg) (s : State) : divideInto dest 7 s = .next (s.enterFault .invalidCombo) :=
  withCombo_seven s _

theorem execBst_seven (s : State) : execBst 7 s = .next (s.enterFault .invalidCombo) := withCombo_seven s _

theorem execOut_seven (s : State) : execOut 7 s = .next (s.enterFault .invalidCombo) := withCombo_seven s _

/-- Settles O23: all five resolve their operand first (`withCombo_seven`). -/
theorem comboSevenIsAFault : Obligations.ComboSevenIsAFault := by
  unfold Obligations.ComboSevenIsAFault
  exact fun s => ⟨divideInto_seven .a s, execBst_seven s, execOut_seven s, divideInto_seven .b s, divideInto_seven .c s⟩

/-- A value divided by two to its own power leaves nothing. -/
theorem pow2div_self {a : Word} (ha : 0 ≤ a.toInt) : pow2div a a.toInt.toNat = 0 := by
  have hlt : (a.toInt.toNat : Int) < 2 ^ a.toInt.toNat := by exact_mod_cast Nat.lt_two_pow_self
  rw [Int.toNat_of_nonneg ha] at hlt
  rw [← toInt_eq_zero_iff, pow2div_toInt, Int.tdiv_eq_zero_of_lt ha hlt]

/-- A division of A by two to the power A gives 0, into any register. -/
theorem divideInto_four (dest : Reg) {s : State} (ha : 0 ≤ s.a.toInt) :
    divideInto dest 4 s = .next ((s.setReg dest 0).advance) := by
  rw [divideInto_eq_pow2div dest (o := 4) rfl ha, pow2div_self ha]

/-- Settles O24: the exponent is a register's old value, that of A itself in the first three cases. -/
theorem divisionReadsOldValues : Obligations.DivisionReadsOldValues := by
  unfold Obligations.DivisionReadsOldValues
  exact fun s => ⟨fun ha => ⟨divideInto_four .a ha, divideInto_four .b ha, divideInto_four .c ha⟩,
    divideInto_eq_pow2div .b (o := 5) rfl, divideInto_eq_pow2div .c (o := 6) rfl⟩

/-! ### The residue modulo 8 (R10) -/

/-- Of the values 0 to 7 only the residue differs from `v` by a multiple of 8. -/
theorem eq_mod8_iff (v : Word) (m : Int) : m = (mod8 v).toNat ↔ 0 ≤ m ∧ m ≤ 7 ∧ (8 : Int) ∣ v.toInt - m := by
  rw [mod8_toNat]
  omega

theorem mod8_toNat_eq_toNat_mod (v : Word) : (mod8 v).toNat = v.toNat % 8 := by
  rw [mod8, BitVec.extractLsb'_toNat, Nat.shiftRight_zero]

/-- Settles O15: `mod8` is the remainder of the signed value (`mod8_toNat`) and of the bit pattern. -/
theorem mod8IsTheResidue : Obligations.Mod8IsTheResidue := by
  unfold Obligations.Mod8IsTheResidue
  exact fun v => ⟨eq_mod8_iff v, mod8_toNat_eq_toNat_mod v⟩

theorem mod8_setWidth_toInt (v : Word) : ((mod8 v).setWidth 64).toInt = v.toInt % 8 := by
  rw [← mod8_toNat]
  exact lit_toInt (mod8 v)

/-- Settles O27: the residue is written zero-extended, so it keeps its value. -/
theorem bstStoresTheResidue : Obligations.BstStoresTheResidue := by
  unfold Obligations.BstStoresTheResidue
  exact fun o s v h => ⟨_, withCombo_some h _, mod8_setWidth_toInt v⟩

/-- Settles O28: what is appended is the residue itself. -/
theorem outAppendsTheResidue : Obligations.OutAppendsTheResidue := by
  unfold Obligations.OutAppendsTheResidue
  exact fun o s v h => ⟨_, withCombo_some h _, mod8_toNat v⟩

end Sys2Proof.Machine

/-! PROOFS. One step (40_cycle.md R80 to R87; 10_state.md section 3): the halt test, faults, and how much a step
changes. -/

namespace Sys2Proof.Machine

/-! ### The three outcomes of the host's step (R80, R81, R87) -/

theorem halted_eq_false_iff (s : State) : halted s = false ↔ s.pc + 1 < s.prog.length := by
  rw [← Bool.not_eq_true, halted_iff, Nat.not_le]

/-- Settles O37: without a fault a step answers a next state (`step_next`), and with one the recorded fault. -/
theorem stepIsTotal : Obligations.StepIsTotal := by
  unfold Obligations.StepIsTotal
  intro s
  refine ⟨step_next, ?_⟩
  cases hs : s.fsr with
  | none =>
    obtain ⟨t, ht⟩ := step_next hs
    rw [ht]
    exact ⟨fun _ => nofun, fun _ => nofun⟩
  | some f =>
    rw [step_of_fault hs]
    exact ⟨fun _ => nofun, fun r hr => ⟨f, rfl, (Host.Outcome.fault.inj hr).symm⟩⟩

theorem nextInstr_isSome_iff (s : State) : (nextInstr s).isSome = true ↔ s.pc + 1 < s.prog.length := by
  rw [← halted_eq_false_iff, ← Bool.not_eq_true, ← nextInstr_eq_none_iff, Option.isSome_iff_ne_none]

theorem cycle_ne_halted {s : State} (hs : s.fsr = none) (hh : halted s = false) : (cycle s).1 ≠ .halted := by
  rcases cycle_cases s with ⟨f, hf, _⟩ | ⟨_, hh', _⟩ | ⟨_, _, _, _, _, _, e⟩ | ⟨_, _, _, _, _, e⟩
  · rw [hs] at hf; cases hf
  · rw [hh] at hh'; cases hh'
  · rw [e]; nofun
  · rw [e]; nofun

/-- Settles O38: on each side of the halt test, what the step, its report and the fetch answer. -/
theorem haltTestComesFirst : Obligations.HaltTestComesFirst := by
  unfold Obligations.HaltTestComesFirst
  refine ⟨fun s hs => ⟨fun hle => ?_, fun hlt => ?_, nextInstr_isSome_iff s⟩, fun p x y z hp => ?_⟩
  · have hh : halted s = true := (halted_iff s).2 hle
    exact ⟨step_of_halted hs hh, cycle_of_halted hs hh, nextInstr_of_halted hh⟩
  · exact ⟨(nextInstr_isSome_iff s).2 hlt, cycle_ne_halted hs ((halted_eq_false_iff s).2 hlt)⟩
  · exact cycle_of_halted rfl ((halted_iff _).2 hp)

/-- A state that a step leaves as it is stays under any number of steps. -/
theorem core_run_of_step_self {s : State} (h : step s = .next s) (n : Nat) :
    Host.Core.run Sys2Proof.core n s = .next s := by
  induction n with
  | zero => rfl
  | succ n ih => exact (core_run_succ_of_next Sys2Proof.core h n).trans ih

/-- Settles O39: a halted state is its own next state, and its report `Halted` ends a run. -/
theorem haltedStateStaysHalted : Obligations.HaltedStateStaysHalted := by
  unfold Obligations.HaltedStateStaysHalted
  intro s n hs hh
  have hcycle := cycle_of_halted hs hh
  exact ⟨core_run_of_step_self (step_of_halted hs hh) n, runFor_succ_of_halted hcycle n, 0, rfl, hcycle⟩

theorem faultPc_of_fsr {s : State} {f : FaultRecord} (h : s.fsr = some f) : faultPc s = f.fpc := by
  rw [faultPc, h]

theorem runFor_succ_of_faulted {s t : State} {cause : FaultCause} (h : cycle s = (.faulted cause, t)) (n : Nat) :
    runFor (n + 1) s = some (.aborted cause (faultPc t)) := by
  rw [runFor, h]

theorem fsr_of_cycle_halted {s t : State} (h : cycle s = (.halted, t)) : s.fsr = none ∧ t = s := by
  rcases cycle_cases s with ⟨_, _, e⟩ | ⟨hs, _, e⟩ | ⟨_, _, _, _, _, _, e⟩ | ⟨_, _, _, _, _, e⟩
  · cases e.symm.trans h
  · cases e.symm.trans h
    exact ⟨hs, rfl⟩
  · cases e.symm.trans h
  · cases e.symm.trans h

/-- No run that starts from a faulted state takes a `Stepped` step, or ends normally. -/
theorem not_endsNormally_of_fsr {s t : State} {f : FaultRecord} (hs : s.fsr = some f) : ¬ EndsNormally s t := by
  rintro ⟨n, h, hend⟩
  cases n with
  | zero =>
    cases h
    obtain ⟨hnone, _⟩ := fsr_of_cycle_halted hend
    cases hnone.symm.trans hs
  | succ n =>
    obtain ⟨u, hu, _⟩ := stepsFor_succ h
    cases hu.symm.trans (cycle_of_fault hs)

/-- Settles O40: the step, its report and the run all answer the recorded fault at their first step. -/
theorem faultIsSticky : Obligations.FaultIsSticky := by
  unfold Obligations.FaultIsSticky
  intro s f n hs
  have hrun := runFor_succ_of_faulted (cycle_of_fault hs) n
  rw [faultPc_of_fsr hs] at hrun
  exact ⟨step_of_fault hs, cycle_of_fault hs, hrun, core_run_succ_of_fault Sys2Proof.core (step_of_fault hs) n,
    fun t => not_endsNormally_of_fsr hs⟩

/-! ### How much a step changes (10_state.md section 3) -/

/-- An effect appends to the output and leaves all registers, or leaves the output and all registers but one. -/
theorem apply_changes_one (e : Effect) (s : State) :
    (∀ q, (e.apply s).reg q = s.reg q) ∨
    ((e.apply s).out = s.out ∧ ∃ r, ∀ q, q ≠ r → (e.apply s).reg q = s.reg q) := by
  cases e with
  | write r v =>
    exact .inr ⟨by simp [Effect.apply], r, fun q hq => apply_reg_of_notMem _ s (by simpa [Effect.writes] using hq)⟩
  | fault cause => exact .inl fun q => apply_reg_of_notMem _ s (by simp [Effect.writes])
  | append v => exact .inl fun q => apply_reg_of_notMem _ s (by simp [Effect.writes])
  | jump target => exact .inl fun q => apply_reg_of_notMem _ s (by simp [Effect.writes])
  | skip => exact .inl fun q => apply_reg_of_notMem _ s (by simp [Effect.writes])

/-- Of A, B, C and the output at most one differs after an effect. -/
theorem apply_changes_at_most_one (e : Effect) (s : State) :
    ((e.apply s).a ≠ s.a → (e.apply s).b = s.b ∧ (e.apply s).c = s.c ∧ (e.apply s).out = s.out) ∧
    ((e.apply s).b ≠ s.b → (e.apply s).a = s.a ∧ (e.apply s).c = s.c ∧ (e.apply s).out = s.out) ∧
    ((e.apply s).c ≠ s.c → (e.apply s).a = s.a ∧ (e.apply s).b = s.b ∧ (e.apply s).out = s.out) ∧
    ((e.apply s).out ≠ s.out → (e.apply s).a = s.a ∧ (e.apply s).b = s.b ∧ (e.apply s).c = s.c) := by
  rcases apply_changes_one e s with h | ⟨hout, r, h⟩
  · have ha : (e.apply s).a = s.a := h .a
    have hb : (e.apply s).b = s.b := h .b
    have hc : (e.apply s).c = s.c := h .c
    simp [ha, hb, hc]
  · have ha : Reg.a ≠ r → (e.apply s).a = s.a := h .a
    have hb : Reg.b ≠ r → (e.apply s).b = s.b := h .b
    have hc : Reg.c ≠ r → (e.apply s).c = s.c := h .c
    cases r with
    | a => simp [hout, hb nofun, hc nofun]
    | b => simp [hout, ha nofun, hc nofun]
    | c => simp [hout, ha nofun, hb nofun]

/-- A step that leaves `pc` takes a jump to it, and a jump changes nothing else. -/
theorem eq_self_of_cycle_pc {s t : State} (h : cycle s = (.stepped, t)) (hpc : t.pc = s.pc) :
    t = s ∧ ∃ o : U3, nextInstr s = some (.jnz o) ∧ o.toNat = s.pc ∧ s.a ≠ 0 := by
  have hj : takesJump s := by
    by_contra hj
    have hadvance := cycle_pc_of_not_takesJump h hj
    omega
  obtain ⟨hs, htaken, o, hi⟩ := id hj
  have ha : s.a ≠ 0 := bne_iff_ne.1 htaken
  have ho : o.toNat = s.pc := (cycle_pc_of_takesJump h hj hi).symm.trans hpc
  have hstep : step s = .next s := by rw [step_of_nextInstr hs hi, exec_jnz_of_ne_zero o ha, ho]
  exact ⟨Host.Outcome.next.inj ((step_of_cycle_stepped h).symm.trans hstep), o, hi, ho, ha⟩

theorem cycle_stepped_out {s t : State} {o : U3} (h : cycle s = (.stepped, t)) (hi : nextInstr s = some (.out o)) :
    t.out.length = s.out.length + 1 := by
  obtain ⟨_, ht, i, hi', hexec⟩ := cycle_stepped h
  obtain rfl : i = .out o := Option.some.inj (hi'.symm.trans hi)
  rcases execOut_cases o s with ⟨_, e⟩ | ⟨v, _, e⟩
  · cases e.symm.trans hexec
    cases ht
  · cases e.symm.trans hexec
    simp

theorem cycle_stepped_not_out {s t : State} (h : cycle s = (.stepped, t)) (hi : ∀ o, nextInstr s ≠ some (.out o)) :
    t.out = s.out := by
  obtain ⟨_, _, i, hi', hexec⟩ := cycle_stepped h
  exact exec_out_of_ne_out hexec fun o ho => hi o (ho ▸ hi')

/-- Settles O36: a step applies one effect, which changes at most one thing (`apply_changes_one`), and the effect that
keeps `pc` is a jump to it (`eq_self_of_cycle_pc`). -/
theorem stepChangesAtMostOneThing : Obligations.StepChangesAtMostOneThing := by
  unfold Obligations.StepChangesAtMostOneThing
  intro s t h
  obtain ⟨_, _, i, _, hexec⟩ := cycle_stepped h
  obtain ⟨ha, hb, hc, hout⟩ := apply_changes_at_most_one (effectOf i s) s
  rw [exec_eq_next_iff.1 hexec] at ha hb hc hout
  refine ⟨ha, hb, hc, hout, fun hpc => ?_, fun o => cycle_stepped_out h, fun ho => ?_⟩
  · obtain ⟨ht, o, hi, ho, htaken⟩ := eq_self_of_cycle_pc h hpc
    exact ⟨ht, ho ▸ Nat.le_of_lt_succ o.isLt, o, hi, ho, htaken⟩
  · rw [cycle_stepped_not_out h ho]

/-! ### Program memory is not read as data (20_memory.md section 1) -/

theorem apply_withProg (e : Effect) (s : State) (p : List U3) :
    e.apply { s with prog := p } = { e.apply s with prog := p } := by
  cases e with
  | write r v => cases r <;> rfl
  | fault cause => rfl
  | append v => rfl
  | jump target => rfl
  | skip => rfl

/-- Settles O33: the effect depends on registers only (`effectOf_congr`), and is applied beside the program. -/
theorem noInstructionReadsTheProgram : Obligations.NoInstructionReadsTheProgram := by
  unfold Obligations.NoInstructionReadsTheProgram
  intro i s t p h
  have heff : effectOf i { s with prog := p } = effectOf i s := effectOf_congr fun r _ => by cases r <;> rfl
  rw [exec_eq_apply, heff, apply_withProg, exec_eq_next_iff.1 h]

end Sys2Proof.Machine

/-! PROOFS. Runs (40_cycle.md R88 to R94): the self-jump, runs without jumps, and how a run ends. -/

namespace Sys2Proof.Machine

/-! ### The self-jump (43_control.md) -/

/-- A `Stepped` step that leaves the state as it was is repeated for ever. -/
theorem stepsFor_of_cycle_self {s : State} (h : cycle s = (.stepped, s)) (n : Nat) : stepsFor n s = some s := by
  induction n with
  | zero => rfl
  | succ n ih => rw [stepsFor_succ_of_stepped h, ih]

/-- While a run goes on, `run` does not return. -/
theorem runFor_of_stepsFor {n : Nat} {s t : State} (h : stepsFor n s = some t) : runFor n s = none :=
  runFor_add_of_stepsFor h 0

/-- Settles O31: the jump leaves `pc`, so the step leaves the state (`stepsFor_of_cycle_self`). -/
theorem selfJumpRunsForEver : Obligations.SelfJumpRunsForEver := by
  unfold Obligations.SelfJumpRunsForEver
  intro s o hs ha hi hpc
  have hexec : exec (.jnz o) s = .next s := by rw [exec_jnz_of_ne_zero o ha, hpc]
  have hsteps := stepsFor_of_cycle_self (cycle_of_exec hs hi hexec hs)
  exact ⟨(step_of_nextInstr hs hi).trans hexec, hsteps, fun n => runFor_of_stepsFor (hsteps n),
    fun n => by rw [hsteps n]; rfl⟩

/-! ### Runs without jumps -/

/-- Without jumps each instruction advances by 2, and was read inside the program. -/
theorem stepsFor_pc_of_no_jump {n : Nat} {s t : State} (h : stepsFor n s = some t)
    (hj : ∀ k u, k < n → stepsFor k s = some u → ¬ takesJump u) :
    t.pc = s.pc + 2 * n ∧ (n = 0 ∨ t.pc ≤ s.prog.length) := by
  induction n generalizing t with
  | zero => cases h; exact ⟨rfl, .inl rfl⟩
  | succ n ih =>
    rw [stepsFor_succ_last, Option.bind_eq_some_iff] at h
    obtain ⟨u, hu, hlast⟩ := h
    have hstep : cycle u = (.stepped, t) := stepsFor_one.1 hlast
    obtain ⟨hpc, _⟩ := ih hu fun k v hk => hj k v (Nat.lt_succ_of_lt hk)
    have hadvance : t.pc = u.pc + 2 := cycle_pc_of_not_takesJump hstep (hj n u (Nat.lt_succ_self n) hu)
    obtain ⟨_, _, i, hi, _⟩ := cycle_stepped hstep
    have hlt : u.pc + 1 < s.prog.length := stepsFor_prog hu ▸ lt_of_nextInstr hi
    omega

/-- Settles O48: the run is at `2 * n`, inside the program or at its end (`stepsFor_pc_of_no_jump`). -/
theorem jumpFreeRunLength : Obligations.JumpFreeRunLength := by
  unfold Obligations.JumpFreeRunLength
  intro p x y z n t h hj
  obtain ⟨hpc, hle⟩ := stepsFor_pc_of_no_jump h hj
  rw [construct_pc, Nat.zero_add] at hpc
  rw [construct_prog] at hle
  have hprog : t.prog = p := stepsFor_prog h
  rw [halted_iff, hprog]
  omega

/-! ### How a run ends (R88, R94) -/

/-- The run from `s` comes to `t` and goes on no further: the next report is `Halted` or `Faulted`. -/
def StopsAt (n : Nat) (s t : State) : Prop := stepsFor n s = some t ∧ (cycle t).1 ≠ .stepped

theorem StopsAt.stepsFor_eq_none {n m : Nat} {s t : State} (h : StopsAt n s t) (hm : n < m) : stepsFor m s = none := by
  obtain ⟨hn, hstop⟩ := h
  obtain ⟨d, rfl⟩ := Nat.exists_eq_add_of_lt hm
  rw [Nat.add_assoc, stepsFor_add, hn, Option.bind_some, Option.eq_none_iff_forall_ne_some]
  intro v hv
  obtain ⟨u, hu, _⟩ := stepsFor_succ hv
  exact hstop (congrArg Prod.fst hu)

/-- A run stops in one state only. -/
theorem StopsAt.unique {n m : Nat} {s t u : State} (ht : StopsAt n s t) (hu : StopsAt m s u) : t = u := by
  have hn : ¬ n < m := fun hlt => by cases (ht.stepsFor_eq_none hlt).symm.trans hu.1
  have hm : ¬ m < n := fun hlt => by cases (hu.stepsFor_eq_none hlt).symm.trans ht.1
  obtain rfl : n = m := Nat.le_antisymm (Nat.not_lt.mp hm) (Nat.not_lt.mp hn)
  exact Option.some.inj (ht.1.symm.trans hu.1)

/-- A run that has not `n` `Stepped` steps stops before. -/
theorem exists_stopsAt_of_stepsFor_eq_none {n : Nat} {s : State} (h : stepsFor n s = none) : ∃ m t, StopsAt m s t := by
  induction n with
  | zero => cases h
  | succ n ih =>
    cases hn : stepsFor n s with
    | none => exact ih hn
    | some t =>
      refine ⟨n, t, hn, fun hstepped => ?_⟩
      have hlast : stepsFor 1 t = some (cycle t).2 := stepsFor_one.2 (Prod.ext hstepped rfl)
      rw [stepsFor_succ_last, hn, Option.bind_some, hlast] at h
      cases h

/-- A run does not end exactly when it stops nowhere. -/
theorem doesNotEnd_iff (s : State) : DoesNotEnd s ↔ ∀ n t, ¬ StopsAt n s t := by
  constructor
  · intro h n t hstop
    have hgoes := h (n + 1)
    rw [hstop.stepsFor_eq_none (Nat.lt_succ_self n)] at hgoes
    cases hgoes
  · intro h n
    by_contra hn
    obtain ⟨m, t, hstop⟩ := exists_stopsAt_of_stepsFor_eq_none (Option.not_isSome_iff_eq_none.1 hn)
    exact h m t hstop

theorem stopsAt_of_halted {n : Nat} {s t u : State} (h : stepsFor n s = some t) (e : cycle t = (.halted, u)) :
    StopsAt n s t := ⟨h, by rw [e]; nofun⟩

theorem stopsAt_of_faulted {n : Nat} {s t u : State} {cause : FaultCause} (h : stepsFor n s = some t)
    (e : cycle t = (.faulted cause, u)) : StopsAt n s t := ⟨h, by rw [e]; nofun⟩

/-- Where a run stops it ends normally or by fault. -/
theorem StopsAt.cases {n : Nat} {s t : State} (h : StopsAt n s t) :
    cycle t = (.halted, t) ∨ ∃ cause u, cycle t = (.faulted cause, u) := by
  obtain ⟨_, hstop⟩ := h
  rcases cycle_cases t with ⟨f, _, e⟩ | ⟨_, _, e⟩ | ⟨_, _, u, f, _, _, e⟩ | ⟨_, _, u, _, _, e⟩
  · exact .inr ⟨_, _, e⟩
  · exact .inl e
  · exact .inr ⟨_, _, e⟩
  · exact absurd (congrArg Prod.fst e) hstop

/-- No run ends both normally and by fault. -/
theorem EndsNormally.not_endsByFault {s t u : State} (h : EndsNormally s t) : ¬ EndsByFault s u := by
  rintro ⟨m, v, cause, hv, ev⟩
  obtain ⟨n, ht, et⟩ := h
  obtain rfl := (stopsAt_of_halted ht et).unique (stopsAt_of_faulted hv ev)
  cases et.symm.trans ev

theorem EndsNormally.unique {s t u : State} (ht : EndsNormally s t) (hu : EndsNormally s u) : t = u := by
  obtain ⟨n, ht, et⟩ := ht
  obtain ⟨m, hu, eu⟩ := hu
  exact (stopsAt_of_halted ht et).unique (stopsAt_of_halted hu eu)

theorem EndsByFault.unique {s t u : State} (ht : EndsByFault s t) (hu : EndsByFault s u) : t = u := by
  obtain ⟨n, v, cause, hv, ev⟩ := ht
  obtain ⟨m, w, cause', hw, ew⟩ := hu
  obtain rfl := (stopsAt_of_faulted hv ev).unique (stopsAt_of_faulted hw ew)
  exact congrArg Prod.snd (ev.symm.trans ew)

theorem EndsNormally.not_doesNotEnd {s t : State} (h : EndsNormally s t) : ¬ DoesNotEnd s := by
  obtain ⟨n, ht, et⟩ := h
  exact fun hgoes => (doesNotEnd_iff s).1 hgoes n t (stopsAt_of_halted ht et)

theorem EndsByFault.not_doesNotEnd {s t : State} (h : EndsByFault s t) : ¬ DoesNotEnd s := by
  obtain ⟨n, v, cause, hv, ev⟩ := h
  exact fun hgoes => (doesNotEnd_iff s).1 hgoes n v (stopsAt_of_faulted hv ev)

theorem exists_end (s : State) : (∃ t, EndsNormally s t) ∨ (∃ t, EndsByFault s t) ∨ DoesNotEnd s := by
  by_cases h : DoesNotEnd s
  · exact .inr (.inr h)
  · rw [doesNotEnd_iff] at h
    push Not at h
    obtain ⟨n, t, hstop⟩ := h
    rcases hstop.cases with e | ⟨cause, u, e⟩
    · exact .inl ⟨t, n, hstop.1, e⟩
    · exact .inr (.inl ⟨u, n, t, cause, hstop.1, e⟩)

/-- Settles O49: a run stops in at most one state (`StopsAt.unique`), and the report there tells the ending. -/
theorem runEndsInExactlyOneWay : Obligations.RunEndsInExactlyOneWay := by
  unfold Obligations.RunEndsInExactlyOneWay
  exact fun s => ⟨exists_end s, fun ⟨⟨_, ht⟩, _, hu⟩ => ht.not_endsByFault hu,
    fun ⟨⟨_, ht⟩, h⟩ => ht.not_doesNotEnd h, fun ⟨⟨_, ht⟩, h⟩ => ht.not_doesNotEnd h,
    fun _ _ => EndsNormally.unique, fun _ _ => EndsByFault.unique⟩

/-! ### What `run` returns (R88) -/

/-- FSR of the final state of a run that ends by fault records the reported cause. -/
theorem fsr_of_cycle_faulted {s t : State} {cause : FaultCause} (h : cycle s = (.faulted cause, t)) :
    t.fsr = some { cause := cause, fpc := faultPc t } := by
  rcases cycle_cases s with ⟨f, hf, e⟩ | ⟨_, _, e⟩ | ⟨_, _, u, f, _, hf, e⟩ | ⟨_, _, _, _, _, e⟩
  · cases e.symm.trans h
    rw [faultPc_of_fsr hf, hf]
  · cases e.symm.trans h
  · cases e.symm.trans h
    rw [faultPc_of_fsr hf, hf]
  · cases e.symm.trans h

/-- What `run` returns in a final state. -/
theorem EndsNormally.runFor_eq {s t : State} (h : EndsNormally s t) : ∃ n, runFor n s = some (.done t.out) := by
  obtain ⟨n, ht, et⟩ := h
  exact ⟨n + 1, (runFor_add_of_stepsFor ht 1).trans (runFor_succ_of_halted et 0)⟩

theorem EndsByFault.runFor_eq {s t : State} {f : FaultRecord} (h : EndsByFault s t) (hf : t.fsr = some f) :
    ∃ n, runFor n s = some (.aborted f.cause f.fpc) := by
  obtain ⟨n, u, cause, hu, eu⟩ := h
  obtain rfl := Option.some.inj ((fsr_of_cycle_faulted eu).symm.trans hf)
  exact ⟨n + 1, (runFor_add_of_stepsFor hu 1).trans (runFor_succ_of_faulted eu 0)⟩

/-- The ending of a run of which `run` returns `e`. -/
def EndsWith (s : State) (e : Ending) : Prop :=
  match e with
  | .done o => ∃ t, EndsNormally s t ∧ t.out = o
  | .aborted cause fpc => ∃ t, EndsByFault s t ∧ t.fsr = some { cause := cause, fpc := fpc }

/-- A `Stepped` step at the front leaves the ending of a run. -/
theorem EndsWith.of_stepped {s u : State} {e : Ending} (hu : cycle s = (.stepped, u)) (h : EndsWith u e) :
    EndsWith s e := by
  cases e with
  | done o =>
    obtain ⟨t, ⟨n, ht, et⟩, ho⟩ := h
    exact ⟨t, ⟨n + 1, (stepsFor_succ_of_stepped hu n).trans ht, et⟩, ho⟩
  | aborted cause fpc =>
    obtain ⟨t, ⟨n, v, c, hv, ev⟩, hf⟩ := h
    exact ⟨t, ⟨n + 1, v, c, (stepsFor_succ_of_stepped hu n).trans hv, ev⟩, hf⟩

theorem endsWith_of_runFor {n : Nat} {s : State} {e : Ending} (h : runFor n s = some e) : EndsWith s e := by
  induction n generalizing s with
  | zero => cases h
  | succ n ih =>
    rcases hcycle : cycle s with ⟨report, u⟩
    cases report with
    | stepped => exact .of_stepped hcycle (ih ((runFor_succ_of_stepped hcycle n).symm.trans h))
    | halted =>
      cases (runFor_succ_of_halted hcycle n).symm.trans h
      obtain ⟨_, rfl⟩ := fsr_of_cycle_halted hcycle
      exact ⟨u, ⟨0, rfl, hcycle⟩, rfl⟩
    | faulted cause =>
      cases (runFor_succ_of_faulted hcycle n).symm.trans h
      exact ⟨u, ⟨0, s, cause, rfl, hcycle⟩, fsr_of_cycle_faulted hcycle⟩

theorem exists_runFor_iff (s : State) (e : Ending) : (∃ n, runFor n s = some e) ↔ EndsWith s e := by
  refine ⟨fun ⟨n, h⟩ => endsWith_of_runFor h, fun h => ?_⟩
  cases e with
  | done o =>
    obtain ⟨t, ht, rfl⟩ := h
    exact ht.runFor_eq
  | aborted cause fpc =>
    obtain ⟨t, ht, hf⟩ := h
    exact ht.runFor_eq hf

/-- A run that goes on for ever is one of which `run` returns nothing. -/
theorem runFor_eq_none_iff (s : State) : (∀ n, runFor n s = none) ↔ DoesNotEnd s := by
  constructor
  · intro h
    rcases exists_end s with ⟨t, ht⟩ | ⟨t, ht⟩ | hgoes
    · obtain ⟨n, hn⟩ := ht.runFor_eq
      cases (h n).symm.trans hn
    · obtain ⟨_, _, _, _, e⟩ := id ht
      obtain ⟨n, hn⟩ := ht.runFor_eq (fsr_of_cycle_faulted e)
      cases (h n).symm.trans hn
    · exact hgoes
  · intro h n
    obtain ⟨t, ht⟩ := Option.isSome_iff_exists.1 (h n)
    exact runFor_of_stepsFor ht

/-- Settles O50: `run` returns an ending exactly when the run has it (`exists_runFor_iff`). -/
theorem runReturnsHowTheRunEnds : Obligations.RunReturnsHowTheRunEnds := by
  unfold Obligations.RunReturnsHowTheRunEnds
  exact fun s => ⟨fun o => exists_runFor_iff s (.done o), fun cause fpc => exists_runFor_iff s (.aborted cause fpc),
    runFor_eq_none_iff s⟩

end Sys2Proof.Machine

/-! PROOFS. The host's side: construction (70_reset_and_hazards.md R170 to R172) and the run status (10_state.md
R28). -/

namespace Sys2Proof.Machine

/-! ### Construction -/

/-- Settles O52: each clause is the field's lemma. -/
theorem constructionGivesTheInitialState : Obligations.ConstructionGivesTheInitialState := by
  unfold Obligations.ConstructionGivesTheInitialState
  exact fun p x y z => ⟨construct_pc p x y z, construct_a p x y z, construct_b p x y z, construct_c p x y z,
    construct_out p x y z, construct_fsr p x y z, construct_prog p x y z⟩

theorem cellInDomain_iff (v : Int) : cellInDomain v = true ↔ 0 ≤ v ∧ v ≤ 7 := decide_eq_true_iff

theorem wordInDomain_iff (v : Int) : wordInDomain v = true ↔ Config.minWord ≤ v ∧ v ≤ Config.maxWord :=
  decide_eq_true_iff

/-- The domain of construction (R172). -/
def InDomain (cells : List Int) (x y z : Int) : Prop :=
  (∀ v ∈ cells, 0 ≤ v ∧ v ≤ 7) ∧ (Config.minWord ≤ x ∧ x ≤ Config.maxWord) ∧
  (Config.minWord ≤ y ∧ y ≤ Config.maxWord) ∧ (Config.minWord ≤ z ∧ z ≤ Config.maxWord)

theorem inDomain_iff (cells : List Int) (x y z : Int) :
    (cells.all cellInDomain && wordInDomain x && wordInDomain y && wordInDomain z) = true ↔ InDomain cells x y z := by
  simp only [Bool.and_eq_true, List.all_eq_true, cellInDomain_iff, wordInDomain_iff, and_assoc, InDomain]

theorem construct?_of_inDomain {cells : List Int} {x y z : Int} (h : InDomain cells x y z) :
    construct? cells x y z = some (State.construct (cells.map (BitVec.ofInt 3)) (BitVec.ofInt 64 x)
      (BitVec.ofInt 64 y) (BitVec.ofInt 64 z)) :=
  if_pos ((inDomain_iff cells x y z).2 h)

theorem construct?_of_not_inDomain {cells : List Int} {x y z : Int} (h : ¬ InDomain cells x y z) :
    construct? cells x y z = none :=
  if_neg (mt (inDomain_iff cells x y z).1 h)

theorem toNat_ofInt_cell {v : Int} (h : 0 ≤ v ∧ v ≤ 7) : ((BitVec.ofInt 3 v).toNat : Int) = v := by
  rw [BitVec.toNat_ofInt]
  omega

/-- Cells in the domain are kept by their 3-bit form. -/
theorem map_toNat_map_ofInt {cells : List Int} (h : ∀ v ∈ cells, 0 ≤ v ∧ v ≤ 7) :
    (cells.map (BitVec.ofInt 3)).map (fun v => (v.toNat : Int)) = cells := by
  rw [List.map_map]
  exact (List.map_congr_left fun v hv => toNat_ofInt_cell (h v hv)).trans (List.map_id' cells)

/-- Settles O53: in the domain the machine words stand for the integers given; outside it nothing is constructed. -/
theorem constructionDomain : Obligations.ConstructionDomain := by
  unfold Obligations.ConstructionDomain
  intro cells x y z
  by_cases h : InDomain cells x y z
  · obtain ⟨hcells, ⟨hx, hx'⟩, ⟨hy, hy'⟩, hz, hz'⟩ := id h
    rw [construct?_of_inDomain h]
    refine ⟨⟨fun _ => h, fun _ => rfl⟩, ?_⟩
    rintro s ⟨⟩
    exact ⟨map_toNat_map_ofInt hcells, toInt_ofInt_of_bounds hx hx', toInt_ofInt_of_bounds hy hy',
      toInt_ofInt_of_bounds hz hz', rfl, rfl, rfl⟩
  · rw [construct?_of_not_inDomain h]
    exact ⟨⟨nofun, fun hdomain => absurd hdomain h⟩, nofun⟩

/-! ### Run status and result -/

/-- Each status with its condition, FAULTED first. -/
theorem status_cases (s : State) :
    (∃ cause fpc, s.fsr = some { cause := cause, fpc := fpc } ∧ status s = .faulted cause fpc) ∨
    (s.fsr = none ∧ halted s = true ∧ status s = .halted) ∨
    (s.fsr = none ∧ halted s = false ∧ status s = .running) := by
  cases hs : s.fsr with
  | some f => exact .inl ⟨f.cause, f.fpc, rfl, by simp [status, hs]⟩
  | none =>
    cases hh : halted s with
    | true => exact .inr (.inl ⟨rfl, rfl, by simp [status, hs, hh]⟩)
    | false => exact .inr (.inr ⟨rfl, rfl, by simp [status, hs, hh]⟩)

theorem status_eq_faulted_iff (s : State) (cause : FaultCause) (fpc : Nat) :
    status s = .faulted cause fpc ↔ s.fsr = some { cause := cause, fpc := fpc } := by
  rcases status_cases s with ⟨_, _, hs, e⟩ | ⟨hs, _, e⟩ | ⟨hs, _, e⟩ <;> simp [hs, e]

theorem status_eq_halted_iff (s : State) : status s = .halted ↔ s.fsr = none ∧ halted s = true := by
  rcases status_cases s with ⟨_, _, hs, e⟩ | ⟨hs, hh, e⟩ | ⟨hs, hh, e⟩ <;> simp [*]

theorem status_eq_running_iff (s : State) : status s = .running ↔ s.fsr = none ∧ halted s = false := by
  rcases status_cases s with ⟨_, _, hs, e⟩ | ⟨hs, hh, e⟩ | ⟨hs, hh, e⟩ <;> simp [*]

theorem result?_eq_some_iff (s : State) (o : List U3) : result? s = some o ↔ status s = .halted ∧ o = s.out := by
  cases h : status s <;> simp [result?, h, eq_comm]

/-- Settles O55: of the three statuses each has its own condition on FSR, `pc` and LEN. -/
theorem statusAndResultAreDerived : Obligations.StatusAndResultAreDerived := by
  unfold Obligations.StatusAndResultAreDerived
  intro s
  have hrunning := status_eq_running_iff s
  have hhalted := status_eq_halted_iff s
  rw [halted_eq_false_iff] at hrunning
  rw [halted_iff] at hhalted
  exact ⟨hrunning, hhalted, status_eq_faulted_iff s, result?_eq_some_iff s⟩

end Sys2Proof.Machine

/-! PROOFS. The step of a model with wide cells (30_encoding.md R69, R70; 60_exceptions.md R142). -/

namespace Sys2Proof.Machine

/-! ### What the wide-cell step can do -/

theorem wideStep_of_fault {s : State} {f : FaultRecord} (cells : List Nat) (h : s.fsr = some f) :
    wideStep cells s = .fault (.aborted f.cause f.fpc) := by
  rw [wideStep, h]

/-- The wide-cell halt test: fewer than two cells are left at `pc`. -/
theorem wideStep_of_short {cells : List Nat} {s : State} (hs : s.fsr = none) (h : (cells.drop s.pc).length < 2) :
    wideStep cells s = .next s := by
  simp only [wideStep, hs, (decode_eq_truncated_iff _).2 h]

theorem wideStep_of_wide {cells : List Nat} {s : State} {p q : Nat} {rest : List Nat} (hs : s.fsr = none)
    (hcells : cells.drop s.pc = p :: q :: rest) (hwide : 7 < p ∨ 7 < q) :
    wideStep cells s = .next (s.enterFault .cellRange) := by
  rcases Nat.lt_or_ge 7 p with hp | hp
  · refine wideStep_of_cellRange (v := p) hs ?_
    rw [hcells, decode_of_wide_opcode q rest hp]
  · have hq : 7 < q := hwide.resolve_left (Nat.not_lt.mpr hp)
    exact wideStep_of_wide_operand hs hcells hp hq

theorem wideStep_of_le {cells : List Nat} {s : State} {p q : Nat} {rest : List Nat} (hs : s.fsr = none)
    (hcells : cells.drop s.pc = p :: q :: rest) (hp : p ≤ 7) (hq : q ≤ 7) :
    wideStep cells s = exec (decodePair (BitVec.ofNat 3 p) (BitVec.ofNat 3 q)) s := by
  simp only [wideStep, hs, hcells, decode_of_le rest hp hq]

/-! ### Cells that are fetched and cells that are not (R69) -/

/-- Two lists with the same first two elements are both too short for a pair, or begin with the same pair. -/
theorem same_pair_of_take_two {l l' : List Nat} (h : l.take 2 = l'.take 2) :
    (l.length < 2 ∧ l'.length < 2) ∨ ∃ p q rest rest', l = p :: q :: rest ∧ l' = p :: q :: rest' := by
  have hlen : min 2 l.length = min 2 l'.length := by simpa using congrArg List.length h
  match l, l' with
  | p :: q :: rest, p' :: q' :: rest' =>
    simp only [List.take_succ_cons, List.take_zero, List.cons.injEq, and_true] at h
    obtain ⟨rfl, rfl⟩ := h
    exact .inr ⟨p, q, rest, rest', rfl, rfl⟩
  | [], _ | [_], _ | _, [] | _, [_] =>
    refine .inl ?_
    simp only [List.length_nil, List.length_cons] at hlen ⊢
    omega

/-- The wide-cell step depends on the two cells that it fetches. -/
theorem wideStep_congr {cells cells' : List Nat} {s : State}
    (h : (cells.drop s.pc).take 2 = (cells'.drop s.pc).take 2) : wideStep cells s = wideStep cells' s := by
  cases hs : s.fsr with
  | some f => rw [wideStep_of_fault cells hs, wideStep_of_fault cells' hs]
  | none =>
    rcases same_pair_of_take_two h with ⟨hl, hl'⟩ | ⟨p, q, rest, rest', hl, hl'⟩
    · rw [wideStep_of_short hs hl, wideStep_of_short hs hl']
    · by_cases hwide : 7 < p ∨ 7 < q
      · rw [wideStep_of_wide hs hl hwide, wideStep_of_wide hs hl' hwide]
      · obtain ⟨hp, hq⟩ := not_or.1 hwide
        rw [wideStep_of_le hs hl (Nat.not_lt.1 hp) (Nat.not_lt.1 hq),
          wideStep_of_le hs hl' (Nat.not_lt.1 hp) (Nat.not_lt.1 hq)]

/-- Settles O57: the check is on both fetched cells (`wideStep_of_wide`), and the others are not looked at. -/
theorem wideStepRaisesCellRange : Obligations.WideStepRaisesCellRange := by
  unfold Obligations.WideStepRaisesCellRange
  exact ⟨fun _ _ _ _ _ => wideStep_of_wide, fun _ _ _ => wideStep_congr⟩

/-! ### Cells 0 to 7 (R70) -/

theorem memRead_of_drop {prog rest : List U3} {addr : Nat} {p q : U3} (h : prog.drop addr = p :: q :: rest) :
    memRead prog addr 2 = some [p, q] := by
  have hlen : (prog.drop addr).length = rest.length + 2 := congrArg List.length h
  rw [List.length_drop] at hlen
  rw [memRead_of_le (by omega), h]
  rfl

/-- Settles O56: both steps stop at the same halt test, and read the same pair where there is one. -/
theorem wideStepRefinesToStep : Obligations.WideStepRefinesToStep := by
  unfold Obligations.WideStepRefinesToStep
  intro cells s hcells hprog
  cases hs : s.fsr with
  | some f => rw [wideStep_of_fault cells hs, step_of_fault hs]
  | none =>
    match hdrop : cells.drop s.pc with
    | p :: q :: rest =>
      have hmem : ∀ v ∈ p :: q :: rest, v ≤ 7 := fun v hv => hcells v (List.mem_of_mem_drop (hdrop ▸ hv))
      have hread : s.prog.drop s.pc = BitVec.ofNat 3 p :: BitVec.ofNat 3 q :: rest.map (BitVec.ofNat 3) := by
        rw [hprog, ← List.map_drop, hdrop]
        rfl
      rw [wideStep_of_le hs hdrop (hmem p (by simp)) (hmem q (by simp)), step_of_memRead hs (memRead_of_drop hread)]
    | [] | [_] =>
      have hshort : (cells.drop s.pc).length < 2 := by simp [hdrop]
      have hh : halted s = true := by
        rw [halted_iff, hprog, List.length_map]
        rw [List.length_drop] at hshort
        omega
      rw [wideStep_of_short hs hshort, step_of_halted hs hh]

end Sys2Proof.Machine
